-- ==== Sys2Proof/Word.lean ====
section
/-! DEFINITION. The bit patterns of the block's ports, the two port bundles and the three float formats.
Nothing here computes: the formats' constants stand in `Machine/Operands.lean`, the bundles' bit numbering in `Decode.lean`. -/

namespace Sys2Proof

/-- A binary16 pattern ("half value", spec/00_scope.md section 6). -/
abbrev Half := BitVec 16

/-- A binary32 pattern. -/
abbrev Single := BitVec 32

/-- A binary64 pattern. -/
abbrev Double := BitVec 64

/-- The raised-condition set as it stands on the port `flags[3:0]` (spec/10_state.md R16). -/
abbrev FlagSet := BitVec 4

/-- The input bundle, one field a port (spec/10_state.md R14; the bundle `REQ` of spec/30_encoding.md R40). -/
structure Request where
  /-- `op[2:0]`, the operation selector. -/
  op : BitVec 3
  /-- `b[15:0]`, the second operand. -/
  b : BitVec 16
  /-- `a[63:0]`, the primary operand. -/
  a : BitVec 64
  deriving DecidableEq, Repr

/-- The output bundle, one field a port (spec/10_state.md R15; the bundle `RSP` of spec/30_encoding.md R41). -/
structure Response where
  /-- `flags[3:0]`, the conditions this operation raised. -/
  flags : FlagSet
  /-- `y[63:0]`, the result. -/
  y : BitVec 64
  deriving DecidableEq, Repr

/-- The three formats there are: no other width can be asked for (spec/00_scope.md R6, spec/40_formats.md R60). -/
inductive Format where
  | binary16
  | binary32
  | binary64
  deriving DecidableEq, Repr

end Sys2Proof
end

