-- ==== Sys2Proof/Machine/Flags.lean ====
section
/-! DEFINITION. The raised conditions (spec/10_state.md R16, spec/60_exceptions.md R151): the four bits, the sets an
operation can raise, and the accumulator a host may keep (R159). -/

namespace Sys2Proof.Machine

/-- `NX`, inexact: bit 0. -/
def flagNX : FlagSet := 0b0001#4

/-- `UF`, underflow: bit 1. -/
def flagUF : FlagSet := 0b0010#4

/-- `OF`, overflow: bit 2. -/
def flagOF : FlagSet := 0b0100#4

/-- `NV`, invalid: bit 3. No operation raises it (spec/60_exceptions.md R155). -/
def flagNV : FlagSet := 0b1000#4

/-- `{}`. -/
def noFlags : FlagSet := 0b0000#4

/-- `{UF, NX}` when the condition holds, else `{}` (spec/41_narrowing.md R84, R85). -/
def tinyFlags (inexact : Bool) : FlagSet := if inexact then flagUF ||| flagNX else noFlags

/-- `{NX}` when the condition holds, else `{}` (spec/41_narrowing.md R86). -/
def inexactFlags (inexact : Bool) : FlagSet := if inexact then flagNX else noFlags

/-- `{OF, NX}` (spec/41_narrowing.md R86, R87). -/
def overflowFlags : FlagSet := flagOF ||| flagNX

/-- `acc <- acc | flags`: a host's sticky accumulator, no part of the block (spec/60_exceptions.md R159). -/
def accumulate (acc flags : FlagSet) : FlagSet := acc ||| flags

end Sys2Proof.Machine
end

