-- ==== Sys2Proof/Machine/Operands.lean ====
section
/-! DEFINITION. The Format Descriptor, the fields, class and value of a pattern (spec/40_formats.md).
A pattern is a natural number here, as the spec's rules have it (R65; spec/00_scope.md section 5). -/

namespace Sys2Proof

/-! ## The Format Descriptor (R60) -/

/-- `W`, the total width. -/
def Format.width : Format → Nat
  | .binary16 => 16
  | .binary32 => 32
  | .binary64 => 64

/-- `EW = E(W)`, the exponent width. -/
def Format.expWidth : Format → Nat
  | .binary16 => 5
  | .binary32 => 8
  | .binary64 => 11

/-- `MW = W - E(W) - 1`, the mantissa width. -/
def Format.manWidth (f : Format) : Nat := f.width - f.expWidth - 1

/-- `BIAS = 2^(E(W)-1) - 1`, the exponent bias. -/
def Format.bias (f : Format) : Nat := 2 ^ (f.expWidth - 1) - 1

/-- `EMAX = 2^EW - 1`, the all-ones exponent field. -/
def Format.emax (f : Format) : Nat := 2 ^ f.expWidth - 1

/-! ## Fields (R61) -/

/-- The three fields of a pattern. -/
structure Fields where
  sign : Nat
  exp : Nat
  man : Nat
  deriving DecidableEq, Repr

/-- `sign(p) = p[W-1]`, `expf(p) = p[W-2:MW]`, `mant(p) = p[MW-1:0]`. -/
def Format.split (f : Format) (p : Nat) : Fields :=
  { sign := (p >>> (f.width - 1)) % 2
    exp := (p >>> f.manWidth) % 2 ^ f.expWidth
    man := p % 2 ^ f.manWidth }

/-- `p = { sign(p), expf(p), mant(p) }`. -/
def Format.join (f : Format) (x : Fields) : Nat :=
  x.sign <<< (f.width - 1) ||| x.exp <<< f.manWidth ||| x.man

/-- The magnitude `p[W-2:0]` of a pattern, its sign left out. -/
def Format.magnitude (f : Format) (p : Nat) : Nat := p % 2 ^ (f.width - 1)

/-! ## Classes (R62) -/

/-- The five classes of a pattern. -/
inductive FloatClass where
  | zero
  | subnormal
  | normal
  | infinity
  | nan
  deriving DecidableEq, Repr

/-- The class, told by the exponent and mantissa fields alone (R62). -/
def Format.classOf (f : Format) (x : Fields) : FloatClass :=
  if x.exp = 0 then
    if x.man = 0 then .zero else .subnormal
  else if x.exp = f.emax then
    if x.man = 0 then .infinity else .nan
  else .normal

/-- The class of a pattern. -/
def Format.classify (f : Format) (p : Nat) : FloatClass := f.classOf (f.split p)

/-- A pattern of the classes zero, subnormal or normal: one that stands for a number (R63). -/
def Format.isFinite (f : Format) (p : Nat) : Bool := decide ((f.split p).exp ≠ f.emax)

/-! ## Value (R63) -/

/-- `val_W(p)` of a finite pattern (R63; the formula is the IEEE-754 meaning, spec/93_implementation_defined.md G1).
Where `p` is an infinity or a NaN it says nothing: every use is under `isFinite`. -/
def Format.val (f : Format) (p : Nat) : ℚ :=
  let x := f.split p
  (-1) ^ x.sign *
    (if x.exp = 0 then (2 : ℚ) ^ (1 - (f.bias : ℤ)) * ((x.man : ℚ) / 2 ^ f.manWidth)
     else (2 : ℚ) ^ ((x.exp : ℤ) - (f.bias : ℤ)) * (1 + (x.man : ℚ) / 2 ^ f.manWidth))

end Sys2Proof
end

