-- ==== Sys2Proof/Config.lean ====
section
/-! DEFINITION. The parameters the spec leaves to the model (spec/00_scope.md R5, the rows marked "argument").
The parameters it marks "fixed" are written into the definitions that use them. -/

namespace Sys2Proof

/-- What a narrowing conversion does with a NaN's payload (spec/00_scope.md R5 `NAN_POLICY`). -/
inductive NanPolicy where
  /-- Truncate the payload, and force a nonzero mantissa. -/
  | preserve
  /-- One fixed quiet-NaN mantissa. -/
  | canonical
  deriving DecidableEq, Repr

/-- The two arguments of spec/00_scope.md R5. They are held in `State`, where no step changes them, so that a
statement over all states is a statement over both policies (log entry 4). -/
structure Config where
  /-- `NAN_POLICY`. -/
  nanPolicy : NanPolicy
  /-- `CANONICAL_NAN_MANT`, read under `NAN_POLICY = CANONICAL` only; it must be nonzero (`Config.wf`). -/
  canonicalNanMant : BitVec 10
  deriving DecidableEq, Repr

/-- The defaults of spec/00_scope.md R5: `PRESERVE` and `0x200`. -/
def Config.default : Config := { nanPolicy := .preserve, canonicalNanMant := 0x200#10 }

end Sys2Proof
end

