-- ==== Sys2Proof/Syntax.lean ====
section
/-! DEFINITION. The eight operations (spec/30_encoding.md R42), each with the operand bits it reads and no others:
the bits it ignores are no part of it (spec/30_encoding.md R46). -/

namespace Sys2Proof

/-- One constructor per row of spec/opcode_table.json, in the order of the opcodes 0 to 7. -/
inductive Instr where
  /-- `F16TOF32`, op 0: `h = a[15:0]`. -/
  | f16tof32 (h : Half)
  /-- `F32TOF16`, op 1: `w = a[31:0]`. -/
  | f32tof16 (w : Single)
  /-- `F64TOF16`, op 2: `d = a[63:0]`. -/
  | f64tof16 (d : Double)
  /-- `NEG`, op 3: `x = a[15:0]`. -/
  | neg (x : Half)
  /-- `COPYSIGN`, op 4: `x = a[15:0]` gives the magnitude, `g = b[15]` the sign. -/
  | copysign (x : Half) (g : BitVec 1)
  /-- `SIGNBIT`, op 5: `x = a[15:0]`. -/
  | signbit (x : Half)
  /-- `ABS`, op 6: `x = a[15:0]`. -/
  | abs (x : Half)
  /-- `F16TOF64`, op 7: `h = a[15:0]`. -/
  | f16tof64 (h : Half)
  deriving DecidableEq, Repr

end Sys2Proof
end

