-- ==== Sys2Proof/WellFormed.lean ====
section
/-! DEFINITION. What is well formed. Of an instruction nothing can be ill formed: every operand pattern is legal
(spec/10_state.md R17, spec/30_encoding.md R43). A request word has 83 bits (spec/30_encoding.md R40), and the
canonical NaN's mantissa is nonzero (spec/00_scope.md R5, spec/93_implementation_defined.md U3). -/

namespace Sys2Proof

/-- "any 16-bit pattern is a valid instance", and so is every 32-bit and 64-bit one (spec/10_state.md R17): no
operand value is refused. -/
def Instr.wf : Instr → Bool
  | .f16tof32 _ => true
  | .f32tof16 _ => true
  | .f64tof16 _ => true
  | .neg _ => true
  | .copysign _ _ => true
  | .signbit _ => true
  | .abs _ => true
  | .f16tof64 _ => true

/-- A number is a request word when it has no bit above `REQ[82]` (spec/30_encoding.md R40). -/
def requestWordWf (w : Nat) : Bool := decide (w < 2 ^ 83)

/-- `CANONICAL_NAN_MANT` is nonzero, for with a zero mantissa the "canonical NaN" would be an infinity
(spec/93_implementation_defined.md U3). -/
def Config.wf (c : Config) : Bool := decide (c.canonicalNanMant ≠ 0#10)

end Sys2Proof
end

