-- ==== Sys2Proof/Decode.lean ====
section
/-! DEFINITION. The request and response words, the decoder and the encoder (spec/30_encoding.md).
Decoding a request is total: all eight opcodes are assigned (R43). The one thing that can be refused is a number that
is no 83-bit word. -/

namespace Sys2Proof

/-! ## The bundles as words -/

/-- `REQ[82:0] = {op[2:0], b[15:0], a[63:0]}` (R40). -/
def Request.toWord (r : Request) : BitVec 83 := r.op ++ r.b ++ r.a

/-- The three ports of a request word (R40). -/
def Request.ofWord (w : BitVec 83) : Request :=
  { op := w.extractLsb' 80 3, b := w.extractLsb' 64 16, a := w.extractLsb' 0 64 }

/-- `RSP[67:0] = {flags[3:0], y[63:0]}` (R41). -/
def Response.toWord (p : Response) : BitVec 68 := p.flags ++ p.y

/-! ## Operand assembly (R44, R45): the low bits of a port, as they stand -/

/-- `a[15:0]`. -/
def halfOperand (a : BitVec 64) : Half := a.extractLsb' 0 16

/-- `a[31:0]`. -/
def singleOperand (a : BitVec 64) : Single := a.extractLsb' 0 32

/-- `a[63:0]`. -/
def doubleOperand (a : BitVec 64) : Double := a

/-- `b[15]`, the only bit of `b` any operation reads. -/
def signSource (b : BitVec 16) : BitVec 1 := b.extractLsb' 15 1

/-! ## The decoder -/

/-- The opcode map of R42. -/
def decodeRequest (r : Request) : Instr :=
  match r.op.toFin with
  | 0 => .f16tof32 (halfOperand r.a)
  | 1 => .f32tof16 (singleOperand r.a)
  | 2 => .f64tof16 (doubleOperand r.a)
  | 3 => .neg (halfOperand r.a)
  | 4 => .copysign (halfOperand r.a) (signSource r.b)
  | 5 => .signbit (halfOperand r.a)
  | 6 => .abs (halfOperand r.a)
  | 7 => .f16tof64 (halfOperand r.a)

/-- The instruction of a request word: never a refusal (R43). -/
def decode (w : BitVec 83) : Instr := decodeRequest (Request.ofWord w)

/-- Why a number is refused as a request. -/
inductive DecodeError where
  /-- It has a bit above `REQ[82]`, so it is no value of the request bundle. Raised by `decodeWord`; safe, since the
  block has no port that could carry such a bit. -/
  | widerThanRequest
  deriving DecidableEq, Repr

/-- Decoding of any number: the 83-bit words are the requests (R40). -/
def decodeWord (w : Nat) : Except DecodeError Instr :=
  if requestWordWf w then .ok (decode (BitVec.ofNat 83 w)) else .error .widerThanRequest

/-- The instruction this decoder reads from the low `nbits` bits of `w`, numbered as spec/opcode_table.json numbers
them: bit 0 is `REQ[0]` (log entry 9). -/
def decodeTableWord (nbits w : Nat) : Option Instr :=
  match decodeWord (w % 2 ^ nbits) with
  | .ok i => some i
  | .error _ => none

/-! ## The encoder -/

/-- The opcode of each operation (R42). -/
def Instr.opcode : Instr → BitVec 3
  | .f16tof32 _ => 0#3
  | .f32tof16 _ => 1#3
  | .f64tof16 _ => 2#3
  | .neg _ => 3#3
  | .copysign _ _ => 4#3
  | .signbit _ => 5#3
  | .abs _ => 6#3
  | .f16tof64 _ => 7#3

/-- The value an operation's request has on `a`, ignored bits written as 0 (R47). -/
def Instr.portA : Instr → BitVec 64
  | .f16tof32 h => h.setWidth 64
  | .f32tof16 w => w.setWidth 64
  | .f64tof16 d => d
  | .neg x => x.setWidth 64
  | .copysign x _ => x.setWidth 64
  | .signbit x => x.setWidth 64
  | .abs x => x.setWidth 64
  | .f16tof64 h => h.setWidth 64

/-- The value an operation's request has on `b`, ignored bits written as 0 (R47). -/
def Instr.portB : Instr → BitVec 16
  | .f16tof32 _ => 0#16
  | .f32tof16 _ => 0#16
  | .f64tof16 _ => 0#16
  | .neg _ => 0#16
  | .copysign _ g => g ++ 0#15
  | .signbit _ => 0#16
  | .abs _ => 0#16
  | .f16tof64 _ => 0#16

/-- The request of an instruction. -/
def Instr.toRequest (i : Instr) : Request := { op := i.opcode, b := i.portB, a := i.portA }

/-- The request word of an instruction (R40, R47). -/
def encode (i : Instr) : BitVec 83 := i.toRequest.toWord

/-- The width of each operation's result (R44): what of `y` it fills, the rest being zero (spec/10_state.md R18). -/
def Instr.resultWidth : Instr → Nat
  | .f16tof32 _ => 32
  | .f32tof16 _ => 16
  | .f64tof16 _ => 16
  | .neg _ => 16
  | .copysign _ _ => 16
  | .signbit _ => 1
  | .abs _ => 16
  | .f16tof64 _ => 64

/-- The mnemonic of each operation (R42, R47). -/
def Instr.mnemonic : Instr → String
  | .f16tof32 _ => "F16TOF32"
  | .f32tof16 _ => "F32TOF16"
  | .f64tof16 _ => "F64TOF16"
  | .neg _ => "NEG"
  | .copysign _ _ => "COPYSIGN"
  | .signbit _ => "SIGNBIT"
  | .abs _ => "ABS"
  | .f16tof64 _ => "F16TOF64"

/-! ## The document's names (R48): each is one operation -/

/-- `half_from(w)`, `narrow(w)` of a 32-bit argument. -/
def Pseudo.narrow32 (w : Single) : Instr := .f32tof16 w

/-- `half_from(d)`, `narrow(d)` of a 64-bit argument. -/
def Pseudo.narrow64 (d : Double) : Instr := .f64tof16 d

/-- `wide_from(h)` with selector 32, `widen(h)` to 32 bits. -/
def Pseudo.widen32 (h : Half) : Instr := .f16tof32 h

/-- `wide_from(h)` with selector 64, `widen(h)` to 64 bits. -/
def Pseudo.widen64 (h : Half) : Instr := .f16tof64 h

/-- `negate(x)`. -/
def Pseudo.negate (x : Half) : Instr := .neg x

/-- `abs(x)`. -/
def Pseudo.abs (x : Half) : Instr := .abs x

/-- `signbit(x)`. -/
def Pseudo.signbit (x : Half) : Instr := .signbit x

/-- `copysign(x, y)`: of `y` only bit 15 is read. -/
def Pseudo.copysign (x y : Half) : Instr := .copysign x (signSource y)

/-- Construction from the raw pattern, and extraction of it: no operation, "the pattern on the port is the value". -/
def Pseudo.raw (x : Half) : Half := x

/-! ## The pattern strings of section 4, as masks -/

/-- The bits of a request word that the operation with opcode `op` reads: every `0`, `1`, `h`, `s`, `d` and `g` of its
pattern string, and no `x` (spec/30_encoding.md section 4; spec/10_state.md R17). -/
def readMask (op : BitVec 3) : BitVec 83 :=
  match op.toFin with
  | 0 => 0x70000000000000000FFFF#83
  | 1 => 0x7000000000000FFFFFFFF#83
  | 2 => 0x70000FFFFFFFFFFFFFFFF#83
  | 3 => 0x70000000000000000FFFF#83
  | 4 => 0x78000000000000000FFFF#83
  | 5 => 0x70000000000000000FFFF#83
  | 6 => 0x70000000000000000FFFF#83
  | 7 => 0x70000000000000000FFFF#83

end Sys2Proof
end

