-- ==== Sys2Proof/Machine/State.lean ====
section
/-! DEFINITION. The state. The block itself keeps none (spec/10_state.md R10 to R13, R19): no register, no program
counter, no status word, no memory. What a model has to represent are the two port bundles of one operation
(spec/10_state.md, first paragraph) and the parameters of spec/00_scope.md R5. -/

namespace Sys2Proof.Machine

/-- What stands on the block's ports, and the parameters it was built with. -/
structure State where
  /-- The parameters of spec/00_scope.md R5; no step changes them. -/
  cfg : Config
  /-- The input ports `op`, `a`, `b` (spec/10_state.md R14). `none`: the host drives nothing defined
  (spec/70_reset_and_hazards.md R180). -/
  req : Option Request
  /-- The output ports `y`, `flags` (spec/10_state.md R15). `none`: not defined, "and a model gives them no value"
  (spec/70_reset_and_hazards.md R180). -/
  rsp : Option Response
  deriving DecidableEq, Repr

/-- The reasons a step stops with a fault: there is none. "There are no fatal errors"; the block raises no exception,
takes no trap, and does not hang (spec/60_exceptions.md R150, spec/00_scope.md R7; spec/93_implementation_defined.md:
"no operation of the block has a `fault` or `stuck` outcome"). -/
inductive Fault where
  deriving DecidableEq, Repr

/-- The reasons a step is refused. -/
inductive Refusal where
  /-- Raised by an arm of `exec` whose instruction has no meaning yet: no arm raises it now. Safe. -/
  | notModelled (mnemonic : String)
  deriving DecidableEq, Repr

/-- There is no reset and nothing to reset (spec/10_state.md R20, spec/70_reset_and_hazards.md R180): the parameters
stand at their defaults (spec/00_scope.md R5), the host drives nothing yet, and so the outputs have no value
(log entries 2 and 4). -/
def State.reset : State := { cfg := Config.default, req := none, rsp := none }

end Sys2Proof.Machine
end

