-- ==== Sys2Proof/Machine/Ops.lean ====
section
/-! DEFINITION. The shared operations: driving and reading the ports, the rounding primitive `rne` and `msb`.
The block takes no exception and returns from none (spec/60_exceptions.md R150, R157), so there is no operation for
that; it touches no memory (spec/20_memory.md R30), so there is none for that either. -/

namespace Sys2Proof.Machine

/-! ## The ports -/

/-- The host presents a request on the input ports (spec/70_reset_and_hazards.md R184). -/
def State.present (s : State) (r : Request) : State := { s with req := some r }

/-- The host stops driving the input ports with defined values (spec/70_reset_and_hazards.md R180). -/
def State.release (s : State) : State := { s with req := none }

/-- The state with the output ports at `p`. -/
def State.withRsp (s : State) (p : Option Response) : State := { s with rsp := p }

/-- `y <- y; flags <- flags`: the whole effect of every operation (spec/00_scope.md section 5). -/
def respond (y : BitVec 64) (flags : FlagSet) (s : State) : Host.Outcome State Fault Refusal :=
  .next (s.withRsp (some { flags := flags, y := y }))

/-- With undefined inputs the outputs have no value (spec/70_reset_and_hazards.md R180; log entry 2). -/
def undriven (s : State) : Host.Outcome State Fault Refusal :=
  .next (s.withRsp none)

/-- The instruction of the request on the input ports. -/
def fetch (s : State) : Option Instr :=
  match s.req with
  | some r => some (decode r.toWord)
  | none => none

/-- `zext_64(v)` of a result pattern (spec/10_state.md R18). -/
def zext64 (v : Nat) : BitVec 64 := BitVec.ofNat 64 v

/-! ## Integer primitives -/

/-- `msb(v)`: for `v ≠ 0`, the index of the highest set bit (spec/00_scope.md section 5). -/
def msb (v : Nat) : Nat := v.log2

/-- A rounded quotient, and whether anything nonzero was discarded. -/
structure Rounded where
  q : Nat
  inexact : Bool
  deriving DecidableEq, Repr

/-- Round to nearest, ties to even, of `v / 2^sh` (spec/40_formats.md R66). -/
def rne (v sh : Nat) : Rounded :=
  if sh = 0 then { q := v, inexact := false }
  else
    let kept := v >>> sh
    let guard := v.testBit (sh - 1)
    let sticky := decide (v &&& (2 ^ (sh - 1) - 1) ≠ 0)
    let up := guard && (sticky || kept.testBit 0)
    { q := kept + up.toNat, inexact := guard || sticky }

end Sys2Proof.Machine
end

