-- ==== Sys2Proof/Machine/Narrow.lean ====
section
/-! DEFINITION. The narrowing conversions `F32TOF16` and `F64TOF16` (spec/41_narrowing.md): the common algorithm for a
source format, one definition a class, and the two meanings. -/

namespace Sys2Proof

/-! ## The thresholds (R83), each from the Format Descriptor -/

/-- `T_SUB = BIAS - 25`, the first exponent field of class `SUBNORMAL`. -/
def Format.tSub (f : Format) : Nat := f.bias - 25

/-- `T_NORM = BIAS - 14`, the first exponent field of class `NORMAL`. -/
def Format.tNorm (f : Format) : Nat := f.bias - 14

/-- `T_OVF = BIAS + 16`, the first exponent field of class `OVERFLOW`. -/
def Format.tOvf (f : Format) : Nat := f.bias + 16

/-- `REBIAS = BIAS - 15`, between a wide and a half exponent field (also spec/42_widening.md, before R113). -/
def Format.rebias (f : Format) : Nat := f.bias - 15

/-- `DROP = MW - 10`, the mantissa bits discarded in class `NORMAL`. -/
def Format.drop (f : Format) : Nat := f.manWidth - 10

namespace Machine

/-! ## Classes (R81) -/

/-- The six classes of a wide operand. -/
inductive NarrowClass where
  | zero
  | subnormal
  | normal
  | overflow
  | inf
  | nan
  deriving DecidableEq, Repr

/-- R81, with `OVERFLOW` stopping at `EMAX - 1` (spec/90_conflicts.md C1). -/
def narrowClass (f : Format) (x : Fields) : NarrowClass :=
  if x.exp = f.emax then
    if x.man = 0 then .inf else .nan
  else if x.exp < f.tSub then .zero
  else if x.exp < f.tNorm then .subnormal
  else if x.exp < f.tOvf then .normal
  else .overflow

/-! ## One definition a class: the half pattern `r` and the conditions raised -/

/-- What a narrowing gives before it is put on the ports. -/
structure Narrowed where
  r : Nat
  flags : FlagSet
  deriving DecidableEq, Repr

/-- `S | mag`: the sign at bit 15 over a magnitude (R80, R82). -/
def halfOf (sign mag : Nat) : Nat := sign <<< 15 ||| mag

/-- Class `ZERO` (R84): a signed zero; a nonzero magnitude was flushed. -/
def narrowZero (f : Format) (p : Nat) (x : Fields) : Narrowed :=
  { r := halfOf x.sign 0, flags := tinyFlags (decide (f.magnitude p ≠ 0)) }

/-- Class `SUBNORMAL` (R85). -/
def narrowSubnormal (f : Format) (x : Fields) : Narrowed :=
  let sig := 2 ^ f.manWidth ||| x.man
  let sh := f.tNorm - x.exp + f.drop
  let k := rne sig sh
  { r := halfOf x.sign k.q, flags := tinyFlags k.inexact }

/-- Class `NORMAL` (R86): the mantissa's carry goes into the exponent field, and at the all-ones exponent the result is
an infinity with `overflow`. -/
def narrowNormal (f : Format) (x : Fields) : Narrowed :=
  let he := x.exp - f.rebias
  let k := rne x.man f.drop
  let t := (he <<< 10) + k.q
  if t = 0x7C00 then { r := halfOf x.sign 0x7C00, flags := overflowFlags }
  else { r := halfOf x.sign t, flags := inexactFlags k.inexact }

/-- Class `OVERFLOW` (R87). -/
def narrowOverflow (x : Fields) : Narrowed :=
  { r := halfOf x.sign 0x7C00, flags := overflowFlags }

/-- Class `INF` (R89). -/
def narrowInf (x : Fields) : Narrowed :=
  { r := halfOf x.sign 0x7C00, flags := noFlags }

/-- The mantissa of a narrowed NaN under each `NAN_POLICY` (R90). -/
def nanMantissa (cfg : Config) (f : Format) (x : Fields) : Nat :=
  match cfg.nanPolicy with
  | .preserve =>
    let p := x.man >>> f.drop
    if p = 0 then 1 else p
  | .canonical => cfg.canonicalNanMant.toNat

/-- Class `NAN` (R90). -/
def narrowNan (cfg : Config) (f : Format) (x : Fields) : Narrowed :=
  { r := halfOf x.sign (0x7C00 ||| nanMantissa cfg f x), flags := noFlags }

/-- The common algorithm (R80, R81) on a pattern `p` of the wide format `f`. -/
def narrow (cfg : Config) (f : Format) (p : Nat) : Narrowed :=
  let x := f.split p
  match narrowClass f x with
  | .zero => narrowZero f p x
  | .subnormal => narrowSubnormal f x
  | .normal => narrowNormal f x
  | .overflow => narrowOverflow x
  | .inf => narrowInf x
  | .nan => narrowNan cfg f x

/-! ## The meanings -/

/-- `F32TOF16` (R91). -/
def execF32tof16 (w : Single) (s : State) : Host.Outcome State Fault Refusal :=
  let n := narrow s.cfg .binary32 w.toNat
  respond (zext64 n.r) n.flags s

/-- `F64TOF16` (R92): from the binary64 fields directly, rounded once (R93). -/
def execF64tof16 (d : Double) (s : State) : Host.Outcome State Fault Refusal :=
  let n := narrow s.cfg .binary64 d.toNat
  respond (zext64 n.r) n.flags s

end Machine

end Sys2Proof
end

