-- ==== Sys2Proof/Machine/SignOps.lean ====
section
/-! DEFINITION. The sign operations `NEG`, `ABS`, `SIGNBIT` and `COPYSIGN` (spec/43_sign_ops.md): bit 15 of a half pattern,
whatever its class. They use nothing of the conversions, and raise nothing (R130). -/

namespace Sys2Proof.Machine

/-- "negate = flip bit 15" (R131). -/
def negHalf (x : Half) : Half := x ^^^ 0x8000#16

/-- "absolute value = clear bit 15" (R132). -/
def absHalf (x : Half) : Half := x &&& 0x7FFF#16

/-- "signbit = test bit 15" (R133). -/
def signOfHalf (x : Half) : BitVec 1 := x.extractLsb' 15 1

/-- "(y's bit 15) combined with (x's bits 14–0)" (R134). -/
def copysignHalf (x : Half) (g : BitVec 1) : Half := (g ++ 0#15) ||| (x &&& 0x7FFF#16)

/-- `NEG` (R131). -/
def execNeg (x : Half) (s : State) : Host.Outcome State Fault Refusal :=
  respond ((negHalf x).setWidth 64) noFlags s

/-- `ABS` (R132). -/
def execAbs (x : Half) (s : State) : Host.Outcome State Fault Refusal :=
  respond ((absHalf x).setWidth 64) noFlags s

/-- `SIGNBIT` (R133): the bit in `y[0]`, 1 for a set sign. -/
def execSignbit (x : Half) (s : State) : Host.Outcome State Fault Refusal :=
  respond ((signOfHalf x).setWidth 64) noFlags s

/-- `COPYSIGN` (R134). -/
def execCopysign (x : Half) (g : BitVec 1) (s : State) : Host.Outcome State Fault Refusal :=
  respond ((copysignHalf x g).setWidth 64) noFlags s

end Sys2Proof.Machine
end

