-- ==== Sys2Proof/Machine/Widen.lean ====
section
/-! DEFINITION. The widening conversions `F16TOF32` and `F16TOF64` (spec/42_widening.md): the common algorithm for a
target format, one definition a class, and the two meanings. `REBIAS` and `LSH = MW - 10` are the narrowing's
`Format.rebias` and `Format.drop`. -/

namespace Sys2Proof

/-- `SUBBASE = BIAS - 24`, the wide exponent field of `2^-24` (spec/42_widening.md, before R113). -/
def Format.subBase (f : Format) : Nat := f.bias - 24

namespace Machine

/-- Zero (R113): the sign alone. -/
def widenZero (f : Format) (x : Fields) : Nat := f.join { sign := x.sign, exp := 0, man := 0 }

/-- Subnormal (R114): normalised into the wide format. -/
def widenSubnormal (f : Format) (x : Fields) : Nat :=
  let k := msb x.man
  let frac := (x.man <<< (10 - k)) &&& 0x3FF
  f.join { sign := x.sign, exp := f.subBase + k, man := frac <<< f.drop }

/-- Normal (R115): the exponent rebiased, the mantissa left-aligned. -/
def widenNormal (f : Format) (x : Fields) : Nat :=
  f.join { sign := x.sign, exp := x.exp + f.rebias, man := x.man <<< f.drop }

/-- Infinity (R116). -/
def widenInf (f : Format) (x : Fields) : Nat := f.join { sign := x.sign, exp := f.emax, man := 0 }

/-- NaN (R117): the ten payload bits left-aligned; nothing is quieted, and `NAN_POLICY` does not apply. -/
def widenNan (f : Format) (x : Fields) : Nat :=
  f.join { sign := x.sign, exp := f.emax, man := x.man <<< f.drop }

/-- The common algorithm (R110, R111): the pattern of format `f` that the half pattern `h` maps to. -/
def widen (f : Format) (h : Nat) : Nat :=
  let x := Format.binary16.split h
  match Format.binary16.classOf x with
  | .zero => widenZero f x
  | .subnormal => widenSubnormal f x
  | .normal => widenNormal f x
  | .infinity => widenInf f x
  | .nan => widenNan f x

/-- `F16TOF32` (R118): no condition is ever raised (R112). -/
def execF16tof32 (h : Half) (s : State) : Host.Outcome State Fault Refusal :=
  respond (zext64 (widen .binary32 h.toNat)) noFlags s

/-- `F16TOF64` (R119): no condition is ever raised (R112). -/
def execF16tof64 (h : Half) (s : State) : Host.Outcome State Fault Refusal :=
  respond (zext64 (widen .binary64 h.toNat)) noFlags s

end Machine

end Sys2Proof
end

