-- ==== Sys2Proof/Machine/Dispatch.lean ====
section
/-! DEFINITION. One arm per operation of spec/30_encoding.md R42. -/

namespace Sys2Proof.Machine

def exec (i : Instr) (s : State) : Host.Outcome State Fault Refusal :=
  match i with
  | .f16tof32 h => Sys2Proof.Machine.execF16tof32 h s
  | .f32tof16 w => Sys2Proof.Machine.execF32tof16 w s
  | .f64tof16 d => Sys2Proof.Machine.execF64tof16 d s
  | .neg x => Sys2Proof.Machine.execNeg x s
  | .copysign x g => Sys2Proof.Machine.execCopysign x g s
  | .signbit x => Sys2Proof.Machine.execSignbit x s
  | .abs x => Sys2Proof.Machine.execAbs x s
  | .f16tof64 h => Sys2Proof.Machine.execF16tof64 h s

end Sys2Proof.Machine
end

