-- ==== Sys2Proof/Machine/Step.lean ====
section
/-! DEFINITION. One step is one evaluation of the block on what stands on its input ports
(spec/70_reset_and_hazards.md R184, spec/92_eei_decisions.md D1). -/

namespace Sys2Proof.Machine

/-- Evaluate the request on the input ports; with nothing defined there, the outputs have no value. -/
def step (s : State) : Host.Outcome State Fault Refusal :=
  match fetch s with
  | some i => exec i s
  | none => undriven s

/-- `s` with the request word made of the low `nbits` bits of `w` presented on the input ports, which is where `step`
takes its operation from (log entry 3). -/
def State.withFetchWord (s : State) (nbits w : Nat) : State :=
  s.present (Request.ofWord (BitVec.ofNat 83 (w % 2 ^ nbits)))

end Sys2Proof.Machine
end

