-- ==== Sys2Proof/Machine/Caller.lean ====
section
/-! DEFINITION. The host's side of the ports: what spec/30_encoding.md R47 and R49, spec/60_exceptions.md R159 and
spec/70_reset_and_hazards.md R182, R184 and R187 say a caller of the block does with one line of a listing. Host variables
and the sticky accumulator are no state of the block (spec/10_state.md R10, R12), so none of this is in `State`
(log entry 10). -/

namespace Sys2Proof.Caller

/-- A source of a line: a literal, or the host variable with a number for its name (R47). -/
inductive Source where
  | literal (v : BitVec 64)
  | variable (name : Nat)
  deriving DecidableEq, Repr

/-- `MNEMONIC dst, srcA`, or for `COPYSIGN` `COPYSIGN dst, srcA, srcB` (R47). -/
structure Line where
  op : BitVec 3
  dst : Nat
  srcA : Source
  srcB : Option Source
  deriving DecidableEq, Repr

/-- `COPYSIGN` has two sources, every other operation one (R47). -/
def Line.wf (l : Line) : Bool := l.srcB.isSome == decide (l.op = 4#3)

/-- The host: the variables it has written, and its sticky accumulator `%acc` (R159). -/
structure Env where
  vars : List (Nat × BitVec 64)
  acc : FlagSet
  deriving DecidableEq, Repr

/-- Why a host stops at a line. -/
inductive Fault where
  /-- A host variable is read that nothing has written (R182; spec/93_implementation_defined.md U1: `fault`, and "Never
  assume zero"). Raised by `Env.read`; safe. -/
  | readBeforeWrite (name : Nat)
  /-- The line has the wrong number of sources for its operation (R47). Raised by `issue`; safe. -/
  | malformedLine
  /-- The block gave no response to a driven request. Raised by `issue`, and by no line: every request is answered
  (spec/60_exceptions.md R150). Safe. -/
  | noResponse
  deriving DecidableEq, Repr

/-- The value of a source. -/
def Env.read (e : Env) : Source → Except Fault (BitVec 64)
  | .literal v => .ok v
  | .variable n =>
    match e.vars.lookup n with
    | some v => .ok v
    | none => .error (.readBeforeWrite n)

/-- The host's variables after `v` is written to variable `n`. -/
def Env.write (e : Env) (n : Nat) (v : BitVec 64) : Env :=
  { e with vars := (n, v) :: e.vars.filter (fun c => c.1 != n) }

/-- The value of the second source; a line without one leaves `b` at 0 (R47). -/
def Env.readB (e : Env) : Option Source → Except Fault (BitVec 64)
  | none => .ok 0#64
  | some src => e.read src

/-- The request of a line, its ignored bits written as 0 (R47). -/
def lineRequest (op : BitVec 3) (a b : BitVec 64) : Request :=
  (decodeRequest { op := op, b := b.setWidth 16, a := a }).toRequest

/-- A result cut to its width (R47, R44). -/
def cutTo (width : Nat) (y : BitVec 64) : BitVec 64 := BitVec.ofNat 64 (y.toNat % 2 ^ width)

/-- What the host does with the response that belongs to its request (R184): the result goes to `dst`, the conditions
into the accumulator (R159). -/
def take (e : Env) (dst : Nat) (r : Request) (p : Response) : Env :=
  { (e.write dst (cutTo (decodeRequest r).resultWidth p.y)) with acc := Machine.accumulate e.acc p.flags }

/-- One line: read the sources, present the request, let the block evaluate it, read the response as one. The sources
are read before `dst` is written (R187). -/
def issue (l : Line) (e : Env) (s : Machine.State) :
    Host.Outcome (Env × Machine.State) Fault Machine.Refusal :=
  if l.wf then
    match e.read l.srcA, e.readB l.srcB with
    | .error f, _ => .fault f
    | .ok _, .error f => .fault f
    | .ok a, .ok b =>
      let r := lineRequest l.op a b
      match Machine.step (s.present r) with
      | .next t =>
        match t.rsp with
        | some p => .next (take e l.dst r p, t)
        | none => .fault .noResponse
      | .fault f => nomatch f
      | .refused x => .refused x
  else .fault .malformedLine

end Sys2Proof.Caller
end

