-- ==== Sys2Proof/Safety.lean ====
section
/-! DEFINITION. What holds of a state the block and a host that keeps its side can be in, in the terms the statements
use. -/

namespace Sys2Proof.Machine

/-- One of the four sets a single operation raises: `{}`, `{NX}`, `{UF,NX}`, `{OF,NX}` (spec/41_narrowing.md R95,
spec/60_exceptions.md R153). -/
def legalFlags (f : FlagSet) : Bool := f == 0b0000#4 || f == 0b0001#4 || f == 0b0011#4 || f == 0b0101#4

/-- The conditions on the output ports are a set that one operation raises. -/
def State.FlagsLegal (s : State) : Prop := ∀ p, s.rsp = some p → legalFlags p.flags = true

/-- The response on the output ports belongs to the request on the input ports (spec/70_reset_and_hazards.md R184):
evaluating that request again changes nothing (spec/20_memory.md R33). -/
def State.Paired (s : State) : Prop := ∀ p, s.rsp = some p → step s = .next s

/-- The result on `y` fits the width of its operation's result (spec/10_state.md R18). -/
def State.ResultFits (s : State) : Prop :=
  ∀ p, s.rsp = some p → ∃ r, s.req = some r ∧ p.y.toNat < 2 ^ (decode r.toWord).resultWidth

/-- The parameters are admissible, and the output ports hold a response that the block can give to what stands on its
input ports. -/
def State.Inv (s : State) : Prop := s.cfg.wf = true ∧ s.FlagsLegal ∧ s.Paired ∧ s.ResultFits

end Sys2Proof.Machine
end

