-- ==== Sys2Proof/Certificates/Slice0/Obligations.lean ====
section
/-! DEFINITION. The statements about the model, each with the rule of spec/ it formalises or rests on. -/

open Sys2Proof Sys2Proof.Machine

/-! ## Words the statements share: the spec's pseudocode with every constant written out, and what an operation narrows -/

namespace Sys2Proof.Written

/-- The pseudocode of spec/41_narrowing.md R91, line for line: the half pattern `r` and `flags`. -/
def f32tof16 (cfg : Config) (w : Single) : Nat × FlagSet :=
  let s := (w.extractLsb' 31 1).toNat
  let E := (w.extractLsb' 23 8).toNat
  let m := (w.extractLsb' 0 23).toNat
  let S := s <<< 15
  if E = 255 ∧ m ≠ 0 then
    let p := if cfg.nanPolicy = .canonical then cfg.canonicalNanMant.toNat else if m >>> 13 = 0 then 1 else m >>> 13
    (S ||| 0x7C00 ||| p, 0b0000#4)
  else if E = 255 then (S ||| 0x7C00, 0b0000#4)
  else if E ≤ 101 then (S, if w.extractLsb' 0 31 ≠ 0#31 then 0b0011#4 else 0b0000#4)
  else if E ≤ 112 then
    let k := rne (0x800000 ||| m) (126 - E)
    (S ||| k.q, if k.inexact then 0b0011#4 else 0b0000#4)
  else if E ≤ 142 then
    let k := rne m 13
    let t := ((E - 112) <<< 10) + k.q
    if t = 0x7C00 then (S ||| 0x7C00, 0b0101#4)
    else (S ||| t, if k.inexact then 0b0001#4 else 0b0000#4)
  else (S ||| 0x7C00, 0b0101#4)

/-- The pseudocode of spec/41_narrowing.md R92, line for line. -/
def f64tof16 (cfg : Config) (w : Double) : Nat × FlagSet :=
  let s := (w.extractLsb' 63 1).toNat
  let E := (w.extractLsb' 52 11).toNat
  let m := (w.extractLsb' 0 52).toNat
  let S := s <<< 15
  if E = 2047 ∧ m ≠ 0 then
    let p := if cfg.nanPolicy = .canonical then cfg.canonicalNanMant.toNat else if m >>> 42 = 0 then 1 else m >>> 42
    (S ||| 0x7C00 ||| p, 0b0000#4)
  else if E = 2047 then (S ||| 0x7C00, 0b0000#4)
  else if E ≤ 997 then (S, if w.extractLsb' 0 63 ≠ 0#63 then 0b0011#4 else 0b0000#4)
  else if E ≤ 1008 then
    let k := rne (0x10000000000000 ||| m) (1051 - E)
    (S ||| k.q, if k.inexact then 0b0011#4 else 0b0000#4)
  else if E ≤ 1038 then
    let k := rne m 42
    let t := ((E - 1008) <<< 10) + k.q
    if t = 0x7C00 then (S ||| 0x7C00, 0b0101#4)
    else (S ||| t, if k.inexact then 0b0001#4 else 0b0000#4)
  else (S ||| 0x7C00, 0b0101#4)

/-- The pseudocode of spec/42_widening.md R118, line for line. -/
def f16tof32 (h : Half) : Nat :=
  let s := (h.extractLsb' 15 1).toNat
  let e := (h.extractLsb' 10 5).toNat
  let m := (h.extractLsb' 0 10).toNat
  let SW := s <<< 31
  if e = 0 ∧ m = 0 then SW
  else if e = 0 then
    let k := msb m
    let frac := (m <<< (10 - k)) &&& 0x3FF
    SW ||| ((103 + k) <<< 23) ||| (frac <<< 13)
  else if e = 31 ∧ m = 0 then SW ||| 0x7F800000
  else if e = 31 then SW ||| 0x7F800000 ||| (m <<< 13)
  else SW ||| ((e + 112) <<< 23) ||| (m <<< 13)

/-- The pseudocode of spec/42_widening.md R119, line for line. -/
def f16tof64 (h : Half) : Nat :=
  let s := (h.extractLsb' 15 1).toNat
  let e := (h.extractLsb' 10 5).toNat
  let m := (h.extractLsb' 0 10).toNat
  let SW := s <<< 63
  if e = 0 ∧ m = 0 then SW
  else if e = 0 then
    let k := msb m
    let frac := (m <<< (10 - k)) &&& 0x3FF
    SW ||| ((999 + k) <<< 52) ||| (frac <<< 42)
  else if e = 31 ∧ m = 0 then SW ||| 0x7FF0000000000000
  else if e = 31 then SW ||| 0x7FF0000000000000 ||| (m <<< 42)
  else SW ||| ((e + 1008) <<< 52) ||| (m <<< 42)

/-- What a narrowing conversion narrows: its source format and the pattern (spec/30_encoding.md R44). -/
def narrowOperand : Instr → Option (Format × Nat)
  | .f32tof16 w => some (.binary32, w.toNat)
  | .f64tof16 d => some (.binary64, d.toNat)
  | .f16tof32 _ => none
  | .neg _ => none
  | .copysign _ _ => none
  | .signbit _ => none
  | .abs _ => none
  | .f16tof64 _ => none

/-- What a widening conversion widens: its target format and the half pattern (spec/30_encoding.md R44). -/
def widenOperand : Instr → Option (Format × Half)
  | .f16tof32 h => some (.binary32, h)
  | .f16tof64 h => some (.binary64, h)
  | .f32tof16 _ => none
  | .f64tof16 _ => none
  | .neg _ => none
  | .copysign _ _ => none
  | .signbit _ => none
  | .abs _ => none

/-- A half result on the line of numbers with the infinities at its ends: every finite half lies strictly between
`-65536` and `65536` (spec/40_formats.md R64). -/
def halfOnLine (r : Nat) : ℚ :=
  if r = 0x7C00 then 65536 else if r = 0xFC00 then -65536 else Format.binary16.val r

end Sys2Proof.Written

/-! ## Encoding -/

/-- spec/30_encoding.md R42, R44, R46, spec/10_state.md R17: encoder and decoder are inverse to each other on what an
operation is. No operand bit of any instruction is dropped or moved between them; and decoding any request and encoding it
again keeps exactly the bits its operation reads (the letters other than `x` of its pattern string) and clears every other
bit, as spec/30_encoding.md R47 (decision D19) writes ignored bits. -/
def Obligations.EncodeAndDecodeAreInverse : Prop :=
  (∀ i : Instr, i.wf = true → decode (encode i) = i ∧ decodeWord (encode i).toNat = .ok i) ∧
  ∀ w : BitVec 83, encode (decode w) = w &&& readMask (w.extractLsb' 80 3)

/-- spec/30_encoding.md R42, R44, R45: what each of the eight values of `op` stands for, and where its operands come
from. The opcode numbers are the spec's decision D12. -/
def Obligations.OpcodeSelectsTheOperation : Prop :=
  ∀ (b : BitVec 16) (a : BitVec 64),
    decode ((0b000#3 ++ b ++ a : BitVec 83)) = .f16tof32 (a.extractLsb' 0 16) ∧
    decode ((0b001#3 ++ b ++ a : BitVec 83)) = .f32tof16 (a.extractLsb' 0 32) ∧
    decode ((0b010#3 ++ b ++ a : BitVec 83)) = .f64tof16 a ∧
    decode ((0b011#3 ++ b ++ a : BitVec 83)) = .neg (a.extractLsb' 0 16) ∧
    decode ((0b100#3 ++ b ++ a : BitVec 83)) = .copysign (a.extractLsb' 0 16) (b.extractLsb' 15 1) ∧
    decode ((0b101#3 ++ b ++ a : BitVec 83)) = .signbit (a.extractLsb' 0 16) ∧
    decode ((0b110#3 ++ b ++ a : BitVec 83)) = .abs (a.extractLsb' 0 16) ∧
    decode ((0b111#3 ++ b ++ a : BitVec 83)) = .f16tof64 (a.extractLsb' 0 16)

/-- spec/95_test_vectors.md section 2.6 and programs P2 and P5: request words written out there, one an opcode and two
more with `b` in use, decode to the operation they are listed under. -/
def Obligations.WrittenRequestWordsDecode : Prop :=
  decodeWord 0x00000000000000000BC00 = .ok (.f16tof32 0xBC00#16) ∧
  decodeWord 0x1000000000000BF800000 = .ok (.f32tof16 0xBF800000#32) ∧
  decodeWord 0x20000BFF0000000000000 = .ok (.f64tof16 0xBFF0000000000000#64) ∧
  decodeWord 0x30000000000000000BC00 = .ok (.neg 0xBC00#16) ∧
  decodeWord 0x40000000000000000BC00 = .ok (.copysign 0xBC00#16 0#1) ∧
  decodeWord 0x4FC000000000000007BFF = .ok (.copysign 0x7BFF#16 1#1) ∧
  decodeWord 0x480000000000000007C01 = .ok (.copysign 0x7C01#16 1#1) ∧
  decodeWord 0x50000000000000000BC00 = .ok (.signbit 0xBC00#16) ∧
  decodeWord 0x60000000000000000BC00 = .ok (.abs 0xBC00#16) ∧
  decodeWord 0x70000000000000000BC00 = .ok (.f16tof64 0xBC00#16)

/-- spec/30_encoding.md R40, R43: every 83-bit word is a request that decodes, and a number with a bit above `REQ[82]`
is none. -/
def Obligations.EveryRequestWordDecodes : Prop :=
  ∀ w : Nat, (w < 2 ^ 83 → ∃ i, decodeWord w = .ok i) ∧
    (2 ^ 83 ≤ w → decodeWord w = .error .widerThanRequest)

/-- spec/30_encoding.md R40, R41 (decision D2): where each port stands in its bundle's word. -/
def Obligations.BundleWordsAreTheirPorts : Prop :=
  (∀ r : Request, r.toWord.extractLsb' 80 3 = r.op ∧ r.toWord.extractLsb' 64 16 = r.b ∧
    r.toWord.extractLsb' 0 64 = r.a ∧ Request.ofWord r.toWord = r) ∧
  ∀ p : Response, p.toWord.extractLsb' 64 4 = p.flags ∧ p.toWord.extractLsb' 0 64 = p.y

/-- spec/10_state.md R17 (decision D10): two requests that agree on every bit their operation reads get the same
response. -/
def Obligations.IgnoredBitsDoNotMatter : Prop :=
  ∀ (s : State) (r r' : Request), r.toWord &&& readMask r.op = r'.toWord &&& readMask r.op →
    ∃ p, step (s.present r) = .next { s with req := some r, rsp := some p } ∧
      step (s.present r') = .next { s with req := some r', rsp := some p }

/-! ## The step -/

/-- spec/70_reset_and_hazards.md R184, spec/30_encoding.md R40: a step on a driven request is `exec` of the instruction it
decodes to, and nothing around it. -/
def Obligations.StepRunsTheDecodedInstruction : Prop :=
  ∀ (s : State) (r : Request) (i : Instr), s.req = some r → decode r.toWord = i → i.wf = true → step s = exec i s

/-- spec/70_reset_and_hazards.md R180: with undefined inputs the outputs are not defined "and a model gives them no value".
That the model says so with `rsp := none` is its own choice (log entry 2). -/
def Obligations.UndrivenInputsLeaveNoResponse : Prop :=
  ∀ s : State, s.req = none → step s = .next { s with rsp := none }

/-- The word a host stores with `withFetchWord` is what the next step runs; the number of the table's bits only has to
cover the request (log entries 3 and 9 are the model's choice of how). -/
def Obligations.PresentedWordIsRunNext : Prop :=
  ∀ (s : State) (nbits w : Nat) (i : Instr), w < 2 ^ nbits → decodeTableWord nbits w = some i →
    step (s.withFetchWord nbits w) = exec i (s.withFetchWord nbits w) ∧
      (s.withFetchWord nbits w).cfg = s.cfg ∧ (s.withFetchWord nbits w).rsp = s.rsp

/-- spec/00_scope.md R5: the parameters' defaults at reset. That the ports have no value then is the model's choice
(log entry 2), after spec/70_reset_and_hazards.md R180. -/
def Obligations.ResetHoldsTheDefaults : Prop :=
  State.reset.cfg.nanPolicy = .preserve ∧ State.reset.cfg.canonicalNanMant = 0x200#10 ∧
    State.reset.req = none ∧ State.reset.rsp = none

/-- spec/00_scope.md R7: every operation is total (a driven request is always answered, and no step stops), and pure: the
response depends on the request and the parameters alone. -/
def Obligations.EveryOperationIsTotalAndPure : Prop :=
  (∀ (s : State) (r : Request), s.req = some r → ∃ p, step s = .next { s with rsp := some p }) ∧
  ∀ s s' : State, s.req = s'.req → s.cfg = s'.cfg →
    ∃ p, step s = .next { s with rsp := p } ∧ step s' = .next { s' with rsp := p }

/-- spec/60_exceptions.md R150, spec/10_state.md R10 to R13: the frame of every operation. No trap and no fault: `exec`
answers a next state, in which a response has been given and nothing else has changed (neither a parameter nor an input
port; there is no register, flag, control word or byte of memory to change). -/
def Obligations.OperationsChangeTheResponseOnly : Prop :=
  ∀ (i : Instr) (s : State), ∃ t, exec i s = .next t ∧ t.rsp.isSome = true ∧ t.req = s.req ∧ t.cfg = s.cfg

/-- spec/70_reset_and_hazards.md R188, spec/10_state.md R19: whatever request came before, a request's response is the same. -/
def Obligations.EarlierOperationsLeaveNoTrace : Prop :=
  ∀ (s t : State) (q r : Request), step (s.present q) = .next t →
    ∃ p, step (t.present r) = .next { s with req := some r, rsp := some p } ∧
      step (s.present r) = .next { s with req := some r, rsp := some p }

/-- spec/70_reset_and_hazards.md R184, spec/20_memory.md R33: after any step, from any state at all, the response on the output
ports belongs to the request on the input ports, and evaluating again changes nothing. -/
def Obligations.StepPairsResponseWithRequest : Prop :=
  ∀ s t : State, step s = .next t → t.Paired ∧ step t = .next t

/-- Every step keeps the invariant: the canonical mantissa stays nonzero (R5), the conditions are a set one operation
raises (spec/41_narrowing.md R95), the response belongs to the request (R184), and the result fits its width (R18). -/
def Obligations.StepKeepsTheInvariant : Prop :=
  ∀ s t : State, s.Inv → step s = .next t → t.Inv

/-- The state after reset meets the invariant. -/
def Obligations.ResetMeetsTheInvariant : Prop := State.reset.Inv

/-- spec/10_state.md R18 (decision D11): the bits of `y` above the result's width are zero. -/
def Obligations.ResultBitsAboveTheWidthAreZero : Prop :=
  (∀ (i : Instr) (s : State), ∃ p, exec i s = .next { s with rsp := some p } ∧ p.y.toNat < 2 ^ i.resultWidth) ∧
  (∀ w, (Instr.f32tof16 w).resultWidth = 16) ∧ (∀ d, (Instr.f64tof16 d).resultWidth = 16) ∧
  (∀ x, (Instr.neg x).resultWidth = 16) ∧ (∀ x, (Instr.abs x).resultWidth = 16) ∧
  (∀ x g, (Instr.copysign x g).resultWidth = 16) ∧ (∀ h, (Instr.f16tof32 h).resultWidth = 32) ∧
  (∀ x, (Instr.signbit x).resultWidth = 1)

/-! ## Formats and rounding -/

/-- spec/40_formats.md R60: the Format Descriptor's constants, as its table writes them out. -/
def Obligations.DescriptorConstants : Prop :=
  (∀ f : Format, (f.width, f.expWidth, f.manWidth, f.bias, f.emax) =
    match f with
    | .binary16 => (16, 5, 10, 15, 31)
    | .binary32 => (32, 8, 23, 127, 255)
    | .binary64 => (64, 11, 52, 1023, 2047))

/-- spec/40_formats.md R61: splitting a pattern into its fields and putting them together again are inverse to each other,
so the three fields are all of the pattern and none overlaps another. -/
def Obligations.FieldsMakeUpThePattern : Prop :=
  (∀ (f : Format) (p : Nat), p < 2 ^ f.width → f.join (f.split p) = p) ∧
  ∀ (f : Format) (x : Fields), x.sign < 2 → x.exp < 2 ^ f.expWidth → x.man < 2 ^ f.manWidth →
    f.split (f.join x) = x ∧ f.join x < 2 ^ f.width

/-- spec/40_formats.md R62: the condition of each class, that the sign plays no part, and that both signs occur in every
class of every format. -/
def Obligations.EveryPatternIsInOneClass : Prop :=
  (∀ (f : Format) (p : Nat), p < 2 ^ f.width →
    let x := f.split p
    (f.classify p = .zero ↔ x.exp = 0 ∧ x.man = 0) ∧
    (f.classify p = .subnormal ↔ x.exp = 0 ∧ x.man ≠ 0) ∧
    (f.classify p = .normal ↔ 1 ≤ x.exp ∧ x.exp ≤ f.emax - 1) ∧
    (f.classify p = .infinity ↔ x.exp = f.emax ∧ x.man = 0) ∧
    (f.classify p = .nan ↔ x.exp = f.emax ∧ x.man ≠ 0) ∧
    f.classify (p ^^^ 2 ^ (f.width - 1)) = f.classify p) ∧
  ∀ (f : Format) (c : FloatClass), ∃ p q, p < 2 ^ f.width ∧ q < 2 ^ f.width ∧
    f.classify p = c ∧ f.classify q = c ∧ (f.split p).sign = 0 ∧ (f.split q).sign = 1

/-- spec/40_formats.md R67 (derived there from R66): the quotient `rne` gives is the nearest integer, the even one of two
equally near, `kept` or `kept + 1`; `inexact` says whether it is exact; and rounding keeps the order. -/
def Obligations.RneRoundsToNearestEven : Prop :=
  (∀ v sh : Nat, 1 ≤ sh →
    let q := (rne v sh).q
    (∀ n : ℤ, |(q : ℤ) * 2 ^ sh - v| ≤ |n * 2 ^ sh - v|) ∧
    (∀ n : ℤ, n ≠ q → |(q : ℤ) * 2 ^ sh - v| = |n * 2 ^ sh - v| → q % 2 = 0) ∧
    ((rne v sh).inexact = false ↔ v = q * 2 ^ sh) ∧
    (q = v >>> sh ∨ q = (v >>> sh) + 1)) ∧
  ∀ v w sh : Nat, 1 ≤ sh → v ≤ w → (rne v sh).q ≤ (rne w sh).q

/-! ## Narrowing -/

/-- spec/41_narrowing.md R91: `F32TOF16` for every operand, under either policy, is the rule's own pseudocode with its own
constants; `a[63:32]` and `b` play no part. `NX` in the normal range and with an overflow is the spec's decision D6 and D7,
the canonical mantissa D9, the opcode D12. -/
def Obligations.F32ToF16IsTheWrittenRule : Prop :=
  ∀ (w : Single) (s : State),
    exec (.f32tof16 w) s = .next { s with rsp := some {
      flags := (Written.f32tof16 s.cfg w).2, y := BitVec.ofNat 64 (Written.f32tof16 s.cfg w).1 } } ∧
    ∀ (b : BitVec 16) (a : BitVec 32), decodeRequest { op := 1#3, b := b, a := a ++ w } = .f32tof16 w

/-- spec/41_narrowing.md R92: `F64TOF16` for every operand, under either policy, is the rule's own pseudocode with its own
constants; `b` plays no part. It rests on decisions D6, D7, D9 and D12 as R91's does, and on D17 (no binary32 in between). -/
def Obligations.F64ToF16IsTheWrittenRule : Prop :=
  ∀ (d : Double) (s : State),
    exec (.f64tof16 d) s = .next { s with rsp := some {
      flags := (Written.f64tof16 s.cfg d).2, y := BitVec.ofNat 64 (Written.f64tof16 s.cfg d).1 } } ∧
    ∀ b : BitVec 16, decodeRequest { op := 2#3, b := b, a := d } = .f64tof16 d

/-- spec/41_narrowing.md R83: the classes of R81 as ranges of the magnitude pattern, as the rule's second table has them. -/
def Obligations.NarrowingClassesAsPatternRanges : Prop :=
  (∀ p : Nat, p < 2 ^ 32 →
    let c := narrowClass .binary32 (Format.binary32.split p)
    let g := p % 2 ^ 31
    (c = .zero ↔ g ≤ 0x32FFFFFF) ∧ (c = .subnormal ↔ 0x33000000 ≤ g ∧ g ≤ 0x387FFFFF) ∧
    (c = .normal ↔ 0x38800000 ≤ g ∧ g ≤ 0x477FFFFF) ∧ (c = .overflow ↔ 0x47800000 ≤ g ∧ g ≤ 0x7F7FFFFF) ∧
    (c = .inf ↔ g = 0x7F800000) ∧ (c = .nan ↔ 0x7F800001 ≤ g)) ∧
  ∀ p : Nat, p < 2 ^ 64 →
    let c := narrowClass .binary64 (Format.binary64.split p)
    let g := p % 2 ^ 63
    (c = .zero ↔ g ≤ 0x3E5FFFFFFFFFFFFF) ∧
    (c = .subnormal ↔ 0x3E60000000000000 ≤ g ∧ g ≤ 0x3F0FFFFFFFFFFFFF) ∧
    (c = .normal ↔ 0x3F10000000000000 ≤ g ∧ g ≤ 0x40EFFFFFFFFFFFFF) ∧
    (c = .overflow ↔ 0x40F0000000000000 ≤ g ∧ g ≤ 0x7FEFFFFFFFFFFFFF) ∧
    (c = .inf ↔ g = 0x7FF0000000000000) ∧ (c = .nan ↔ 0x7FF0000000000001 ≤ g)

/-- spec/41_narrowing.md R82: in every class the result's bit 15 is the operand's sign. That the half stands
in `y[15:0]` is the spec's decision D2. -/
def Obligations.NarrowingCopiesTheSign : Prop :=
  (∀ (w : Single) (s : State), ∃ p, exec (.f32tof16 w) s = .next { s with rsp := some p } ∧
    p.y.extractLsb' 15 1 = w.extractLsb' 31 1) ∧
  ∀ (d : Double) (s : State), ∃ p, exec (.f64tof16 d) s = .next { s with rsp := some p } ∧
    p.y.extractLsb' 15 1 = d.extractLsb' 63 1

/-- spec/41_narrowing.md R89: an infinity narrows to the infinity of the same sign, and nothing is raised. That the half
stands in `y[15:0]` is the spec's decision D2, the zero bits above it D11. -/
def Obligations.InfinityNarrowsToInfinity : Prop :=
  (∀ (sign : BitVec 1) (s : State), exec (.f32tof16 (sign ++ 0xFF#8 ++ 0#23)) s =
    .next { s with rsp := some { flags := 0b0000#4, y := (sign ++ 0x7C00#15 : BitVec 16).setWidth 64 } }) ∧
  ∀ (sign : BitVec 1) (s : State), exec (.f64tof16 (sign ++ 0x7FF#11 ++ 0#52)) s =
    .next { s with rsp := some { flags := 0b0000#4, y := (sign ++ 0x7C00#15 : BitVec 16).setWidth 64 } }

/-- spec/41_narrowing.md R90: a NaN narrows to a NaN of the same sign, never an infinity, with nothing raised: under
`PRESERVE` with the top ten bits of its mantissa, or 1 where those are all zero; under `CANONICAL` (whose pattern and sign
are the spec's decisions D9 and D21) with the canonical mantissa, which has to be nonzero (R5). -/
def Obligations.NanNarrowsToNan : Prop :=
  ∀ (i : Instr) (f : Format) (p : Nat) (s : State),
    Written.narrowOperand i = some (f, p) → f.classify p = .nan → s.cfg.wf = true →
    ∃ m : BitVec 10, m ≠ 0#10 ∧
      exec i s = .next { s with rsp := some { flags := 0b0000#4, y := (BitVec.ofNat 1 (f.split p).sign ++ 0x1F#5 ++ m).setWidth 64 } } ∧
      (s.cfg.nanPolicy = .canonical → m = s.cfg.canonicalNanMant) ∧
      (s.cfg.nanPolicy = .preserve →
        let top := (f.split p).man / 2 ^ (f.manWidth - 10)
        (top ≠ 0 → m.toNat = top) ∧ (top = 0 → m = 1#10))

/-- spec/41_narrowing.md R96: the magnitudes and conditions each class can produce, the ends of the ranges included. The
NaN row needs a nonzero canonical mantissa (R5). -/
def Obligations.ResultsOfEachNarrowingClass : Prop :=
  ∀ (i : Instr) (f : Format) (p : Nat) (s : State), Written.narrowOperand i = some (f, p) → s.cfg.wf = true →
    ∃ (r : Nat) (flags : FlagSet), r < 2 ^ 16 ∧
      exec i s = .next { s with rsp := some { flags := flags, y := BitVec.ofNat 64 r } } ∧
      let g := r % 2 ^ 15
      match narrowClass f (f.split p) with
      | .zero => g = 0 ∧ (flags = 0b0000#4 ∨ flags = 0b0011#4)
      | .subnormal => g ≤ 0x0400 ∧ (flags = 0b0000#4 ∨ flags = 0b0011#4) ∧ (g = 0 ∨ g = 0x0400 → flags = 0b0011#4)
      | .normal => 0x0400 ≤ g ∧ g ≤ 0x7C00 ∧ (g < 0x7C00 → flags = 0b0000#4 ∨ flags = 0b0001#4) ∧
          (g = 0x7C00 → flags = 0b0101#4)
      | .overflow => g = 0x7C00 ∧ flags = 0b0101#4
      | .inf => g = 0x7C00 ∧ flags = 0b0000#4
      | .nan => 0x7C01 ≤ g ∧ flags = 0b0000#4

/-- spec/41_narrowing.md R95, spec/60_exceptions.md R153: the four sets a narrowing raises, of which each occurs. -/
def Obligations.FourSetsOfConditions : Prop :=
  (∀ (i : Instr) (f : Format) (p : Nat) (s : State), Written.narrowOperand i = some (f, p) →
    ∃ q, exec i s = .next { s with rsp := some q } ∧
      (q.flags = 0b0000#4 ∨ q.flags = 0b0001#4 ∨ q.flags = 0b0011#4 ∨ q.flags = 0b0101#4)) ∧
  ∀ (flags : FlagSet) (s : State), legalFlags flags = true →
    (∃ w y, exec (.f32tof16 w) s = .next { s with rsp := some { flags := flags, y := y } }) ∧
    ∃ d y, exec (.f64tof16 d) s = .next { s with rsp := some { flags := flags, y := y } }

/-- spec/41_narrowing.md R94: correct rounding. Below 65520 the result is the finite half nearest to the operand's value,
the one with an even mantissa field of two equally near, with the operand's sign; from 65520 on it is the infinity with the
operand's sign. The value of a pattern is spec/40_formats.md R63. -/
def Obligations.NarrowingRoundsCorrectly : Prop :=
  ∀ (i : Instr) (f : Format) (p : Nat) (s : State),
    Written.narrowOperand i = some (f, p) → f.isFinite p = true →
    ∃ (r : Nat) (flags : FlagSet), r < 2 ^ 16 ∧
      exec i s = .next { s with rsp := some { flags := flags, y := BitVec.ofNat 64 r } } ∧
      (Format.binary16.split r).sign = (f.split p).sign ∧
      (|f.val p| < 65520 →
        Format.binary16.isFinite r = true ∧
        ∀ h < 2 ^ 16, Format.binary16.isFinite h = true →
          |Format.binary16.val r - f.val p| ≤ |Format.binary16.val h - f.val p| ∧
          (|Format.binary16.val h - f.val p| = |Format.binary16.val r - f.val p| →
            Format.binary16.val h ≠ Format.binary16.val r → (Format.binary16.split r).man % 2 = 0)) ∧
      (65520 ≤ |f.val p| → Format.binary16.classify r = .infinity)

/-- spec/41_narrowing.md R88 (in the normal range and with an overflow it rests on decisions D6 and D7): for a finite operand
`NX` is raised exactly when the result is not the operand's number; for an infinity or a NaN never. -/
def Obligations.InexactSaysTheValueChanged : Prop :=
  ∀ (i : Instr) (f : Format) (p : Nat) (s : State), Written.narrowOperand i = some (f, p) →
    ∃ (r : Nat) (flags : FlagSet), r < 2 ^ 16 ∧
      exec i s = .next { s with rsp := some { flags := flags, y := BitVec.ofNat 64 r } } ∧
      (f.isFinite p = true → (flags.getLsbD 0 = true ↔
        ¬ (Format.binary16.isFinite r = true ∧ Format.binary16.val r = f.val p))) ∧
      (f.isFinite p = false → flags.getLsbD 0 = false)

/-- spec/00_scope.md R5 (tininess rule), spec/41_narrowing.md R84 to R87: for a finite operand `UF` is raised exactly when
the result is inexact and the operand lies below the half normal range, `OF` exactly when it lies at or above the tie 65520;
for an infinity or a NaN neither. -/
def Obligations.UnderflowAndOverflowByMagnitude : Prop :=
  ∀ (i : Instr) (f : Format) (p : Nat) (s : State), Written.narrowOperand i = some (f, p) →
    ∃ q, exec i s = .next { s with rsp := some q } ∧
      (f.isFinite p = true →
        (q.flags.getLsbD 1 = true ↔ q.flags.getLsbD 0 = true ∧ |f.val p| < 2 ^ (-14 : ℤ)) ∧
        (q.flags.getLsbD 2 = true ↔ 65520 ≤ |f.val p|)) ∧
      (f.isFinite p = false → q.flags.getLsbD 1 = false ∧ q.flags.getLsbD 2 = false)

/-- spec/41_narrowing.md R94: narrowing keeps the order of finite values, the infinities at the ends; also between the two
source formats. -/
def Obligations.NarrowingIsMonotonic : Prop :=
  ∀ (i j : Instr) (f g : Format) (p q : Nat) (s : State),
    Written.narrowOperand i = some (f, p) → Written.narrowOperand j = some (g, q) →
    f.isFinite p = true → g.isFinite q = true → f.val p ≤ g.val q →
    ∃ (r t : Nat) (fi fj : FlagSet), r < 2 ^ 16 ∧ t < 2 ^ 16 ∧
      exec i s = .next { s with rsp := some { flags := fi, y := BitVec.ofNat 64 r } } ∧
      exec j s = .next { s with rsp := some { flags := fj, y := BitVec.ofNat 64 t } } ∧
      Written.halfOnLine r ≤ Written.halfOnLine t

/-- spec/41_narrowing.md R94, spec/40_formats.md R68, spec/43_sign_ops.md R135: flipping a wide operand's sign bit negates the
narrowed half (as `NEG` does) and raises the same conditions. -/
def Obligations.NarrowingIsOdd : Prop :=
  (∀ (w : Single) (s : State), ∃ y z flags,
    exec (.f32tof16 w) s = .next { s with rsp := some { flags := flags, y := y } } ∧
    exec (.f32tof16 (w ^^^ 0x80000000#32)) s = .next { s with rsp := some { flags := flags, y := z } } ∧
    exec (.neg (y.extractLsb' 0 16)) s = .next { s with rsp := some { flags := 0b0000#4, y := z } }) ∧
  ∀ (d : Double) (s : State), ∃ y z flags,
    exec (.f64tof16 d) s = .next { s with rsp := some { flags := flags, y := y } } ∧
    exec (.f64tof16 (d ^^^ 0x8000000000000000#64)) s = .next { s with rsp := some { flags := flags, y := z } } ∧
    exec (.neg (y.extractLsb' 0 16)) s = .next { s with rsp := some { flags := 0b0000#4, y := z } }

/-- spec/41_narrowing.md R93 (decision D17): the rule's witness that `F64TOF16` does not go through binary32. -/
def Obligations.F64ToF16DoesNotRoundTwice : Prop :=
  ∀ s : State,
    exec (.f64tof16 0x3FF0020000001000#64) s =
      .next { s with rsp := some { flags := 0b0001#4, y := 0x3C01#64 } } ∧
    exec (.f32tof16 0x3F801000#32) s =
      .next { s with rsp := some { flags := 0b0001#4, y := 0x3C00#64 } }

/-! ## Widening -/

/-- spec/42_widening.md R118: `F16TOF32` for every operand is the rule's own pseudocode with its own constants; `a[63:16]` and
`b` play no part. The opcode (D12), the zero bits above the
result (D11) and the driven 0 of `flags` (D16) are the spec's decisions, which the rule takes in. -/
def Obligations.F16ToF32IsTheWrittenRule : Prop :=
  ∀ (h : Half) (s : State),
    exec (.f16tof32 h) s = .next { s with rsp := some {
      flags := 0b0000#4, y := BitVec.ofNat 64 (Written.f16tof32 h) } } ∧
    Written.f16tof32 h < 2 ^ 32 ∧
    ∀ (b : BitVec 16) (a : BitVec 48), decodeRequest { op := 0#3, b := b, a := a ++ h } = .f16tof32 h

/-- spec/42_widening.md R119: `F16TOF64` for every operand is the rule's own pseudocode with its own constants; `a[63:16]` and
`b` play no part. The opcode (D12), the zero bits above the
result (D11) and the driven 0 of `flags` (D16) are the spec's decisions, which the rule takes in. -/
def Obligations.F16ToF64IsTheWrittenRule : Prop :=
  ∀ (h : Half) (s : State),
    exec (.f16tof64 h) s = .next { s with rsp := some {
      flags := 0b0000#4, y := BitVec.ofNat 64 (Written.f16tof64 h) } } ∧
    Written.f16tof64 h < 2 ^ 64 ∧
    ∀ (b : BitVec 16) (a : BitVec 48), decodeRequest { op := 7#3, b := b, a := a ++ h } = .f16tof64 h

/-- spec/42_widening.md R120: widening is exact. A finite half keeps its value, an infinity stays an infinity, a NaN a NaN,
all with their sign, and nothing is raised. -/
def Obligations.WideningIsExact : Prop :=
  ∀ (i : Instr) (f : Format) (h : Half) (s : State), Written.widenOperand i = some (f, h) →
    ∃ r : Nat, r < 2 ^ f.width ∧
      exec i s = .next { s with rsp := some { flags := 0b0000#4, y := BitVec.ofNat 64 r } } ∧
      (f.split r).sign = (Format.binary16.split h.toNat).sign ∧
      (Format.binary16.isFinite h.toNat = true → f.isFinite r = true ∧ f.val r = Format.binary16.val h.toNat) ∧
      (Format.binary16.classify h.toNat = .zero → f.classify r = .zero) ∧
      (Format.binary16.classify h.toNat = .infinity → f.classify r = .infinity) ∧
      (Format.binary16.classify h.toNat = .nan → f.classify r = .nan)

/-- spec/42_widening.md R120: distinct half patterns, NaNs included, widen to distinct patterns. -/
def Obligations.WideningIsInjective : Prop :=
  ∀ (h h' : Half) (s : State), (exec (.f16tof32 h) s = exec (.f16tof32 h') s → h = h') ∧
    (exec (.f16tof64 h) s = exec (.f16tof64 h') s → h = h')

/-- spec/42_widening.md R121: widening a half and narrowing the result gives the half back, with nothing raised, through
either width: every pattern under `PRESERVE`, every pattern but a NaN under `CANONICAL`, where a NaN comes back as the
canonical NaN of its sign. -/
def Obligations.WidenThenNarrowRoundTrips : Prop :=
  ∀ (x : Half) (s : State),
    let back : Half := if s.cfg.nanPolicy = .canonical ∧ Format.binary16.classify x.toNat = .nan
      then (x &&& 0x8000#16) ||| 0x7C00#16 ||| s.cfg.canonicalNanMant.setWidth 16 else x
    (∃ y, exec (.f16tof32 x) s = .next { s with rsp := some { flags := 0b0000#4, y := y } } ∧
      exec (.f32tof16 (y.extractLsb' 0 32)) s =
        .next { s with rsp := some { flags := 0b0000#4, y := back.setWidth 64 } }) ∧
    ∃ y, exec (.f16tof64 x) s = .next { s with rsp := some { flags := 0b0000#4, y := y } } ∧
      exec (.f64tof16 y) s = .next { s with rsp := some { flags := 0b0000#4, y := back.setWidth 64 } }

/-- spec/42_widening.md R122: the two widenings of a half stand for the same value, and their mantissa fields differ by a
left shift of 29, NaNs included. -/
def Obligations.WideningsAgree : Prop :=
  ∀ (h : Half) (s : State), ∃ r t : Nat, r < 2 ^ 32 ∧ t < 2 ^ 64 ∧
    exec (.f16tof32 h) s = .next { s with rsp := some { flags := 0b0000#4, y := BitVec.ofNat 64 r } } ∧
    exec (.f16tof64 h) s = .next { s with rsp := some { flags := 0b0000#4, y := BitVec.ofNat 64 t } } ∧
    (Format.binary32.split r).sign = (Format.binary64.split t).sign ∧
    Format.binary32.classify r = Format.binary64.classify t ∧
    (Format.binary32.isFinite r = true → Format.binary32.val r = Format.binary64.val t) ∧
    (Format.binary64.split t).man = (Format.binary32.split r).man * 2 ^ 29

/-! ## Sign operations -/

/-- spec/43_sign_ops.md R131: `NEG` flips bit 15 and keeps bits 14 to 0, for every pattern; twice is the identity. The opcode (D12), the zero bits above the
result (D11) and the driven 0 of `flags` (D16) are the spec's decisions, which the rule takes in. -/
def Obligations.NegFlipsBitFifteen : Prop :=
  ∀ (x : Half) (s : State), ∃ r : Half,
    exec (.neg x) s = .next { s with rsp := some { flags := 0b0000#4, y := r.setWidth 64 } } ∧
    r = x ^^^ 0x8000#16 ∧ r.extractLsb' 15 1 = ~~~ x.extractLsb' 15 1 ∧ r.extractLsb' 0 15 = x.extractLsb' 0 15 ∧
    exec (.neg r) s = .next { s with rsp := some { flags := 0b0000#4, y := x.setWidth 64 } } ∧
    ∀ (b : BitVec 16) (a : BitVec 48), decodeRequest { op := 3#3, b := b, a := a ++ x } = .neg x

/-- spec/43_sign_ops.md R132: `ABS` clears bit 15 and keeps bits 14 to 0, for every pattern; the sign bit of the result is 0. The opcode (D12), the zero bits above the
result (D11) and the driven 0 of `flags` (D16) are the spec's decisions, which the rule takes in. -/
def Obligations.AbsClearsBitFifteen : Prop :=
  ∀ (x : Half) (s : State), ∃ r : Half,
    exec (.abs x) s = .next { s with rsp := some { flags := 0b0000#4, y := r.setWidth 64 } } ∧
    r = x &&& 0x7FFF#16 ∧ r.extractLsb' 15 1 = 0#1 ∧ r.extractLsb' 0 15 = x.extractLsb' 0 15 ∧
    exec (.signbit r) s = .next { s with rsp := some { flags := 0b0000#4, y := 0#64 } } ∧
    ∀ (b : BitVec 16) (a : BitVec 48), decodeRequest { op := 6#3, b := b, a := a ++ x } = .abs x

/-- spec/43_sign_ops.md R133 (its carriage in `y[0]` is decision D18): `SIGNBIT` answers bit 15 in `y[0]`, for every pattern. -/
def Obligations.SignbitTestsBitFifteen : Prop :=
  ∀ (x : Half) (s : State), ∃ y : BitVec 64,
    exec (.signbit x) s = .next { s with rsp := some { flags := 0b0000#4, y := y } } ∧
    y.extractLsb' 0 1 = x.extractLsb' 15 1 ∧ y.extractLsb' 1 63 = 0#63 ∧
    ∀ (b : BitVec 16) (a : BitVec 48), decodeRequest { op := 5#3, b := b, a := a ++ x } = .signbit x

/-- spec/43_sign_ops.md R134: `COPYSIGN` takes bits 14 to 0 from `a` and bit 15 from `b[15]`; `a[63:16]` and `b[14:0]` play no
part, and one pattern on both ports comes back. The opcode (D12), the zero bits above the
result (D11) and the driven 0 of `flags` (D16) are the spec's decisions, which the rule takes in. -/
def Obligations.CopysignCombinesSignAndMagnitude : Prop :=
  ∀ (x : Half) (g : BitVec 1) (s : State), ∃ r : Half,
    exec (.copysign x g) s = .next { s with rsp := some { flags := 0b0000#4, y := r.setWidth 64 } } ∧
    r.extractLsb' 15 1 = g ∧ r.extractLsb' 0 15 = x.extractLsb' 0 15 ∧
    (g = x.extractLsb' 15 1 → r = x) ∧
    ∀ (low : BitVec 15) (a : BitVec 48), decodeRequest { op := 4#3, b := g ++ low, a := a ++ x } = .copysign x g

/-- spec/43_sign_ops.md R135: the identities of the sign operations, for all `x` and `z` (the first three are the document's,
the others the spec derives). -/
def Obligations.SignIdentities : Prop :=
  ∀ x z : Half,
    negHalf (negHalf x) = x ∧
    signOfHalf (absHalf x) = 0#1 ∧ absHalf (absHalf x) = absHalf x ∧ absHalf (negHalf x) = absHalf x ∧
    signOfHalf (copysignHalf x (signSource z)) = signOfHalf z ∧ absHalf (copysignHalf x (signSource z)) = absHalf x ∧
    signOfHalf (negHalf x) = 1#1 - signOfHalf x ∧
    absHalf x = copysignHalf x (signSource 0x0000#16) ∧ negHalf x = copysignHalf x (signSource (negHalf x)) ∧
    copysignHalf x (signSource z) = if signOfHalf x = signOfHalf z then x else negHalf x

/-- spec/43_sign_ops.md R135: negating a half and widening it is widening it and flipping the top bit. -/
def Obligations.NegationCommutesWithWidening : Prop :=
  ∀ (x : Half) (s : State), ∃ n y z : BitVec 64,
    exec (.neg x) s = .next { s with rsp := some { flags := 0b0000#4, y := n } } ∧
    exec (.f16tof32 x) s = .next { s with rsp := some { flags := 0b0000#4, y := y } } ∧
    exec (.f16tof32 (n.extractLsb' 0 16)) s =
      .next { s with rsp := some { flags := 0b0000#4, y := y ^^^ 0x80000000#64 } } ∧
    exec (.f16tof64 x) s = .next { s with rsp := some { flags := 0b0000#4, y := z } } ∧
    exec (.f16tof64 (n.extractLsb' 0 16)) s =
      .next { s with rsp := some { flags := 0b0000#4, y := z ^^^ 0x8000000000000000#64 } }

/-- spec/60_exceptions.md R152: which operations can raise what. Each of `NX`, `UF` and `OF` is raised by some operand of either
narrowing, none is ever raised by another operation, and `NV` by nothing. The places of the four bits are decision D4, the driven 0 of the others is D16. -/
def Obligations.WhichOperationsRaiseWhat : Prop :=
  (∀ (k : Nat) (s : State), k < 3 →
    (∃ w p, exec (.f32tof16 w) s = .next { s with rsp := some p } ∧ p.flags.getLsbD k = true) ∧
    ∃ d p, exec (.f64tof16 d) s = .next { s with rsp := some p } ∧ p.flags.getLsbD k = true) ∧
  ∀ (i : Instr) (s : State), ∃ p, exec i s = .next { s with rsp := some p } ∧
    (Written.narrowOperand i = none → p.flags = 0b0000#4) ∧ p.flags.getLsbD 3 = false

/-! ## The host's side -/

/-- spec/30_encoding.md R47, spec/60_exceptions.md R159, spec/70_reset_and_hazards.md R184 (the host's variables are the model's
`Caller.Env`, log entry 10): a well-formed line whose sources can be read always completes, its result goes to `dst`, its
conditions are or-ed into the accumulator, and no other variable changes. -/
def Obligations.LineUpdatesItsTargetAndTheAccumulator : Prop :=
  ∀ (l : Caller.Line) (e : Caller.Env) (s : State) (a b : BitVec 64), l.wf = true →
    e.read l.srcA = .ok a → e.readB l.srcB = .ok b →
    ∃ (e' : Caller.Env) (t : State) (p : Response), Caller.issue l e s = .next (e', t) ∧
      t.rsp = some p ∧
      exec (decodeRequest { op := l.op, b := b.setWidth 16, a := a }) (s.present (Caller.lineRequest l.op a b)) = .next t ∧
      e'.acc = e.acc ||| p.flags ∧ e'.vars.lookup l.dst = some p.y ∧
      ∀ n, n ≠ l.dst → e'.vars.lookup n = e.vars.lookup n

/-- spec/70_reset_and_hazards.md R187: with one variable as source and destination the old value is read, then replaced. -/
def Obligations.SourceIsReadBeforeTargetIsWritten : Prop :=
  ∀ (e : Caller.Env) (s : State) (n : Nat) (x : Half), e.vars.lookup n = some (x.setWidth 64) →
    (∃ e' t, Caller.issue { op := 3#3, dst := n, srcA := .variable n, srcB := none } e s = .next (e', t) ∧
      e'.vars.lookup n = some ((x ^^^ 0x8000#16).setWidth 64)) ∧
    ∃ e' t, Caller.issue { op := 4#3, dst := n, srcA := .variable n, srcB := some (.variable n) } e s = .next (e', t) ∧
      e'.vars.lookup n = some (x.setWidth 64)

/-- spec/70_reset_and_hazards.md R182, spec/93_implementation_defined.md U1 (of its two treatments the model takes the fault, log
entry 10): a line that reads a variable nothing has written stops there, by its name, as its first source or as its second. -/
def Obligations.UnwrittenVariableIsNotAssumedZero : Prop :=
  ∀ (l : Caller.Line) (e : Caller.Env) (s : State) (n : Nat), l.wf = true → e.vars.lookup n = none →
    (l.srcA = .variable n → Caller.issue l e s = .fault (.readBeforeWrite n)) ∧
    (∀ a, e.read l.srcA = .ok a → l.srcB = some (.variable n) → Caller.issue l e s = .fault (.readBeforeWrite n))
end

