-- ==== Sys2Proof/Laws/Caller.lean ====
section
/-! SUPPORT. Reading and writing the host's variables. -/

namespace Sys2Proof.Caller

@[simp] theorem Env.write_acc (e : Env) (n : Nat) (v : BitVec 64) : (e.write n v).acc = e.acc := rfl

@[simp] theorem take_acc (e : Env) (dst : Nat) (r : Request) (p : Response) :
    (take e dst r p).acc = Machine.accumulate e.acc p.flags := rfl

/-- The written variable reads as what was written. -/
theorem Env.lookup_write_self (e : Env) (n : Nat) (v : BitVec 64) : (e.write n v).vars.lookup n = some v := by
  simp [Env.write]

/-- Leaving out one key leaves every other key's value. -/
theorem lookup_filter_ne (vars : List (Nat × BitVec 64)) {m n : Nat} (h : m ≠ n) :
    (vars.filter (fun c => c.1 != n)).lookup m = vars.lookup m := by
  induction vars with
  | nil => rfl
  | cons c cs ih =>
    obtain ⟨k, v⟩ := c
    by_cases hc : k = n
    · have hm : (m == k) = false := by simpa [hc] using h
      simp [hc, List.lookup_cons, ih]
      simp [show (m == n) = false by simpa using h]
    · simp [hc, List.lookup_cons, ih]

/-- Every other variable reads as before. -/
theorem Env.lookup_write_other (e : Env) {m n : Nat} (v : BitVec 64) (h : m ≠ n) :
    (e.write n v).vars.lookup m = e.vars.lookup m := by
  have hm : (m == n) = false := by simpa using h
  simp [Env.write, List.lookup_cons, hm, lookup_filter_ne _ h]

end Sys2Proof.Caller
end

