-- ==== Sys2Proof/Laws/Operands.lean ====
section
/-! SUPPORT. The constants of each format, the bounds of the fields, and patterns as sums of their fields.
The constants are proved by `(rfl)`, not `rfl`, so that `simp` rewrites the condition of an `if` together with its
decision procedure. -/

namespace Sys2Proof

@[simp] theorem Format.width_binary16 : Format.binary16.width = 16 := (rfl)
@[simp] theorem Format.width_binary32 : Format.binary32.width = 32 := (rfl)
@[simp] theorem Format.width_binary64 : Format.binary64.width = 64 := (rfl)
@[simp] theorem Format.expWidth_binary16 : Format.binary16.expWidth = 5 := (rfl)
@[simp] theorem Format.expWidth_binary32 : Format.binary32.expWidth = 8 := (rfl)
@[simp] theorem Format.expWidth_binary64 : Format.binary64.expWidth = 11 := (rfl)
@[simp] theorem Format.manWidth_binary16 : Format.binary16.manWidth = 10 := (rfl)
@[simp] theorem Format.manWidth_binary32 : Format.binary32.manWidth = 23 := (rfl)
@[simp] theorem Format.manWidth_binary64 : Format.binary64.manWidth = 52 := (rfl)
@[simp] theorem Format.bias_binary16 : Format.binary16.bias = 15 := (rfl)
@[simp] theorem Format.bias_binary32 : Format.binary32.bias = 127 := (rfl)
@[simp] theorem Format.bias_binary64 : Format.binary64.bias = 1023 := (rfl)
@[simp] theorem Format.emax_binary16 : Format.binary16.emax = 31 := (rfl)
@[simp] theorem Format.emax_binary32 : Format.binary32.emax = 255 := (rfl)
@[simp] theorem Format.emax_binary64 : Format.binary64.emax = 2047 := (rfl)
@[simp] theorem Format.tSub_binary32 : Format.binary32.tSub = 102 := (rfl)
@[simp] theorem Format.tSub_binary64 : Format.binary64.tSub = 998 := (rfl)
@[simp] theorem Format.tNorm_binary32 : Format.binary32.tNorm = 113 := (rfl)
@[simp] theorem Format.tNorm_binary64 : Format.binary64.tNorm = 1009 := (rfl)
@[simp] theorem Format.tOvf_binary32 : Format.binary32.tOvf = 143 := (rfl)
@[simp] theorem Format.tOvf_binary64 : Format.binary64.tOvf = 1039 := (rfl)
@[simp] theorem Format.rebias_binary32 : Format.binary32.rebias = 112 := (rfl)
@[simp] theorem Format.rebias_binary64 : Format.binary64.rebias = 1008 := (rfl)
@[simp] theorem Format.drop_binary32 : Format.binary32.drop = 13 := (rfl)
@[simp] theorem Format.drop_binary64 : Format.binary64.drop = 42 := (rfl)
@[simp] theorem Format.subBase_binary32 : Format.binary32.subBase = 103 := (rfl)
@[simp] theorem Format.subBase_binary64 : Format.binary64.subBase = 999 := (rfl)

/-- The sign, the exponent field and the mantissa field fill the width. -/
theorem Format.width_eq (f : Format) : f.width = f.manWidth + f.expWidth + 1 := by cases f <;> rfl

theorem Format.split_sign_lt (f : Format) (p : Nat) : (f.split p).sign < 2 := Nat.mod_lt _ (by decide)

theorem Format.split_exp_lt (f : Format) (p : Nat) : (f.split p).exp < 2 ^ f.expWidth :=
  Nat.mod_lt _ (by positivity)

theorem Format.split_man_lt (f : Format) (p : Nat) : (f.split p).man < 2 ^ f.manWidth :=
  Nat.mod_lt _ (by positivity)

/-- A pattern is the sum of its fields, each at its place. -/
theorem Format.join_eq_add (f : Format) (x : Fields) (he : x.exp < 2 ^ f.expWidth) (hm : x.man < 2 ^ f.manWidth) :
    f.join x = x.sign * 2 ^ (f.width - 1) + (x.exp * 2 ^ f.manWidth + x.man) := by
  have hlow : x.exp * 2 ^ f.manWidth + x.man < 2 ^ (f.width - 1) := by
    rw [f.width_eq, Nat.add_sub_cancel, pow_add]
    nlinarith [Nat.one_le_two_pow (n := f.manWidth)]
  rw [Format.join, Nat.or_assoc, ← Nat.shiftLeft_add_eq_or_of_lt hm, ← Nat.shiftLeft_add_eq_or_of_lt
    (by rwa [Nat.shiftLeft_eq]), Nat.shiftLeft_eq, Nat.shiftLeft_eq]

/-- The magnitude is the exponent field over the mantissa field. -/
theorem Format.magnitude_eq (f : Format) (p : Nat) :
    f.magnitude p = (f.split p).exp * 2 ^ f.manWidth + (f.split p).man := by
  rw [Format.magnitude, f.width_eq, Nat.add_sub_cancel, pow_add, Nat.mod_mul]
  simp only [Format.split, Nat.shiftRight_eq_div_pow]
  ring

namespace Machine

/-- The sign over a magnitude of 15 bits is their sum. -/
theorem halfOf_eq_add (sign mag : Nat) (h : mag < 2 ^ 15) : halfOf sign mag = sign * 2 ^ 15 + mag := by
  rw [halfOf, ← Nat.shiftLeft_add_eq_or_of_lt h, Nat.shiftLeft_eq]

/-! ## The conversions class by class -/

theorem narrow_zero {cfg : Config} {f : Format} {p : Nat} (h : narrowClass f (f.split p) = .zero) :
    narrow cfg f p = narrowZero f p (f.split p) := by simp [narrow, h]

theorem narrow_subnormal {cfg : Config} {f : Format} {p : Nat} (h : narrowClass f (f.split p) = .subnormal) :
    narrow cfg f p = narrowSubnormal f (f.split p) := by simp [narrow, h]

theorem narrow_normal {cfg : Config} {f : Format} {p : Nat} (h : narrowClass f (f.split p) = .normal) :
    narrow cfg f p = narrowNormal f (f.split p) := by simp [narrow, h]

theorem narrow_overflow {cfg : Config} {f : Format} {p : Nat} (h : narrowClass f (f.split p) = .overflow) :
    narrow cfg f p = narrowOverflow (f.split p) := by simp [narrow, h]

theorem narrow_inf {cfg : Config} {f : Format} {p : Nat} (h : narrowClass f (f.split p) = .inf) :
    narrow cfg f p = narrowInf (f.split p) := by simp [narrow, h]

theorem narrow_nan {cfg : Config} {f : Format} {p : Nat} (h : narrowClass f (f.split p) = .nan) :
    narrow cfg f p = narrowNan cfg f (f.split p) := by simp [narrow, h]

theorem widen_zero {f : Format} {h : Nat} (c : Format.binary16.classify h = .zero) :
    widen f h = widenZero f (Format.binary16.split h) := by
  have c' : Format.binary16.classOf (Format.binary16.split h) = .zero := c
  simp [widen, c']

theorem widen_subnormal {f : Format} {h : Nat} (c : Format.binary16.classify h = .subnormal) :
    widen f h = widenSubnormal f (Format.binary16.split h) := by
  have c' : Format.binary16.classOf (Format.binary16.split h) = .subnormal := c
  simp [widen, c']

theorem widen_normal {f : Format} {h : Nat} (c : Format.binary16.classify h = .normal) :
    widen f h = widenNormal f (Format.binary16.split h) := by
  have c' : Format.binary16.classOf (Format.binary16.split h) = .normal := c
  simp [widen, c']

theorem widen_inf {f : Format} {h : Nat} (c : Format.binary16.classify h = .infinity) :
    widen f h = widenInf f (Format.binary16.split h) := by
  have c' : Format.binary16.classOf (Format.binary16.split h) = .infinity := c
  simp [widen, c']

theorem widen_nan {f : Format} {h : Nat} (c : Format.binary16.classify h = .nan) :
    widen f h = widenNan f (Format.binary16.split h) := by
  have c' : Format.binary16.classOf (Format.binary16.split h) = .nan := c
  simp [widen, c']

end Machine

end Sys2Proof
end

