-- ==== Sys2Proof/Laws/Words.lean ====
section
/-! SUPPORT. A request word bit by bit, as the concatenation of its three ports. -/

namespace Sys2Proof

/-- Which port a bit of the request word belongs to (spec/30_encoding.md R40). -/
theorem Request.getLsbD_toWord (r : Request) (i : Nat) :
    r.toWord.getLsbD i =
      if i < 64 then r.a.getLsbD i else if i < 80 then r.b.getLsbD (i - 64) else r.op.getLsbD (i - 80) := by
  unfold Request.toWord
  erw [BitVec.getLsbD_append]
  rw [BitVec.getLsbD_append]
  have e : i - 64 - 16 = i - 80 := by omega
  by_cases h1 : i < 64
  · simp [h1]
  · by_cases h2 : i < 80
    · have h3 : i - 64 < 16 := by omega
      simp [h1, h2, h3]
    · have h3 : ¬ i - 64 < 16 := by omega
      simp [h1, h2, h3, e]

/-- The ports of a word, put together again, are the word. -/
@[simp] theorem Request.toWord_ofWord (w : BitVec 83) : (Request.ofWord w).toWord = w := by
  apply BitVec.eq_of_getLsbD_eq
  intro i hi
  rw [Request.getLsbD_toWord]
  by_cases h1 : i < 64
  · simp [Request.ofWord, h1]
  · by_cases h2 : i < 80
    · have h3 : i - 64 < 16 := by omega
      have h4 : 64 + (i - 64) = i := by omega
      simp [Request.ofWord, h1, h2, h3, h4]
    · have h3 : i - 80 < 3 := by omega
      have h4 : 80 + (i - 80) = i := by omega
      simp [Request.ofWord, h1, h2, h3, h4]

/-- Masking a request word is masking each port. -/
theorem Request.toWord_and (r m : Request) :
    r.toWord &&& m.toWord = Request.toWord { op := r.op &&& m.op, b := r.b &&& m.b, a := r.a &&& m.a } := by
  apply BitVec.eq_of_getLsbD_eq
  intro i hi
  rw [BitVec.getLsbD_and, Request.getLsbD_toWord, Request.getLsbD_toWord, Request.getLsbD_toWord]
  by_cases h1 : i < 64
  · simp [h1]
  · by_cases h2 : i < 80 <;> simp [h1, h2]

/-- The opcode's place in a request word. -/
theorem Request.toWord_op (r : Request) : r.toWord.extractLsb' 80 3 = r.op := by
  apply BitVec.eq_of_getLsbD_eq
  intro i hi
  have h1 : ¬ 80 + i < 64 := by omega
  have h2 : ¬ 80 + i < 80 := by omega
  rw [BitVec.getLsbD_extractLsb', Request.getLsbD_toWord]
  simp [hi, h1]

end Sys2Proof
end

