-- ==== Sys2Proof/Laws/PerInstr.lean ====
section
/-! SUPPORT. What holds of every instruction as syntax, one lemma a constructor. -/

namespace Sys2Proof.Laws

/-- The low `n` bits of a zero-extended pattern are all of it. -/
theorem and_mask_setWidth {n : Nat} (x : BitVec n) (m : BitVec 64) (h : m.toNat = 2 ^ n - 1) (hn : n ≤ 64) :
    x.setWidth 64 &&& m = x.setWidth 64 := by
  apply BitVec.eq_of_toNat_eq
  rw [BitVec.toNat_and, h, Nat.and_two_pow_sub_one_eq_mod, BitVec.toNat_setWidth_of_le hn, Nat.mod_eq_of_lt x.isLt]

/-- A mask that keeps each port keeps the word. -/
theorem toWord_and_eq {r : Request} {mask : BitVec 83} (m : Request) (hm : mask = m.toWord)
    (ho : r.op &&& m.op = r.op) (hb : r.b &&& m.b = r.b) (ha : r.a &&& m.a = r.a) :
    r.toWord &&& mask = r.toWord := by
  rw [hm, Request.toWord_and, ho, hb, ha]

/-- The one bit of a sign source is kept by the mask of `b[15]`. -/
theorem signSource_and_mask (g : BitVec 1) : (g ++ 0#15 : BitVec 16) &&& 0x8000#16 = g ++ 0#15 := by
  revert g; decide

/-- The encoder writes the instruction's opcode to `REQ[82:80]`, and no bit that its operation ignores
(spec/30_encoding.md R40, R42, R46, R47). -/
def FixedBits.Statement (i : Instr) : Prop :=
  (encode i).extractLsb' 80 3 = i.opcode ∧ encode i &&& readMask i.opcode = encode i

theorem FixedBits.f16tof32 (h : Half) : FixedBits.Statement (.f16tof32 h) :=
  ⟨Request.toWord_op _, toWord_and_eq ⟨7#3, 0#16, 0xFFFF#64⟩ (by rfl) BitVec.and_allOnes BitVec.zero_and
    (and_mask_setWidth h _ rfl (by decide))⟩

theorem FixedBits.f32tof16 (w : Single) : FixedBits.Statement (.f32tof16 w) :=
  ⟨Request.toWord_op _, toWord_and_eq ⟨7#3, 0#16, 0xFFFFFFFF#64⟩ (by rfl) BitVec.and_allOnes BitVec.zero_and
    (and_mask_setWidth w _ rfl (by decide))⟩

theorem FixedBits.f64tof16 (d : Double) : FixedBits.Statement (.f64tof16 d) :=
  ⟨Request.toWord_op _, toWord_and_eq ⟨7#3, 0#16, 0xFFFFFFFFFFFFFFFF#64⟩ (by rfl) BitVec.and_allOnes BitVec.zero_and
    BitVec.and_allOnes⟩

theorem FixedBits.neg (x : Half) : FixedBits.Statement (.neg x) :=
  ⟨Request.toWord_op _, toWord_and_eq ⟨7#3, 0#16, 0xFFFF#64⟩ (by rfl) BitVec.and_allOnes BitVec.zero_and
    (and_mask_setWidth x _ rfl (by decide))⟩

theorem FixedBits.copysign (x : Half) (g : BitVec 1) : FixedBits.Statement (.copysign x g) :=
  ⟨Request.toWord_op _, toWord_and_eq ⟨7#3, 0x8000#16, 0xFFFF#64⟩ (by rfl) BitVec.and_allOnes (signSource_and_mask g)
    (and_mask_setWidth x _ rfl (by decide))⟩

theorem FixedBits.signbit (x : Half) : FixedBits.Statement (.signbit x) :=
  ⟨Request.toWord_op _, toWord_and_eq ⟨7#3, 0#16, 0xFFFF#64⟩ (by rfl) BitVec.and_allOnes BitVec.zero_and
    (and_mask_setWidth x _ rfl (by decide))⟩

theorem FixedBits.abs (x : Half) : FixedBits.Statement (.abs x) :=
  ⟨Request.toWord_op _, toWord_and_eq ⟨7#3, 0#16, 0xFFFF#64⟩ (by rfl) BitVec.and_allOnes BitVec.zero_and
    (and_mask_setWidth x _ rfl (by decide))⟩

theorem FixedBits.f16tof64 (h : Half) : FixedBits.Statement (.f16tof64 h) :=
  ⟨Request.toWord_op _, toWord_and_eq ⟨7#3, 0#16, 0xFFFF#64⟩ (by rfl) BitVec.and_allOnes BitVec.zero_and
    (and_mask_setWidth h _ rfl (by decide))⟩

end Sys2Proof.Laws
end

