-- ==== Sys2Proof/Laws/Rounding.lean ====
section
/-! SUPPORT. The rounding primitive and `msb` in terms of quotient and remainder, for the proofs that use them. -/

namespace Sys2Proof.Machine

/-- The remainder of a shift by at least one is a guard bit over a sticky rest. -/
theorem mod_two_pow_split (v k : Nat) : v % 2 ^ (k + 1) = (v / 2 ^ k % 2) * 2 ^ k + v % 2 ^ k := by
  rw [pow_succ, Nat.mod_mul, Nat.add_comm, Nat.mul_comm]

/-- All that `rne` does, by the remainder `v % 2^sh` against half of `2^sh`: below it the quotient stays, above it goes
up, and on it goes to the even one. `inexact` says that there is a remainder. -/
theorem rne_eq (v sh : Nat) (h : 1 ≤ sh) :
    rne v sh = { q := if 2 ^ (sh - 1) < v % 2 ^ sh ∨ (v % 2 ^ sh = 2 ^ (sh - 1) ∧ v / 2 ^ sh % 2 = 1)
                      then v / 2 ^ sh + 1 else v / 2 ^ sh
                 inexact := decide (v % 2 ^ sh ≠ 0) } := by
  obtain ⟨k, rfl⟩ : ∃ k, sh = k + 1 := ⟨sh - 1, by omega⟩
  have hm := mod_two_pow_split v k
  have hlow : v % 2 ^ k < 2 ^ k := Nat.mod_lt _ (by positivity)
  have hand : v &&& (2 ^ k - 1) = v % 2 ^ k := Nat.and_two_pow_sub_one_eq_mod v k
  have hpos : 0 < 2 ^ k := by positivity
  simp only [rne, Nat.add_sub_cancel, Nat.succ_ne_zero, if_false, Nat.shiftRight_eq_div_pow, hand,
    Nat.testBit_eq_decide_div_mod_eq, pow_zero, Nat.div_one]
  rcases Nat.mod_two_eq_zero_or_one (v / 2 ^ k) with hg | hg
  · have h1 : ¬ 2 ^ k < v % 2 ^ (k + 1) := by rw [hm, hg]; omega
    have h2 : ¬ v % 2 ^ (k + 1) = 2 ^ k := by rw [hm, hg]; omega
    have h3 : v % 2 ^ (k + 1) = v % 2 ^ k := by rw [hm, hg]; omega
    simp [hg, h3]
    omega
  · have h4 : v % 2 ^ (k + 1) ≠ 0 := by rw [hm, hg]; omega
    by_cases hs : v % 2 ^ k = 0
    · have h1 : ¬ 2 ^ k < v % 2 ^ (k + 1) := by rw [hm, hg]; omega
      have h2 : v % 2 ^ (k + 1) = 2 ^ k := by rw [hm, hg]; omega
      by_cases ho : v / 2 ^ (k + 1) % 2 = 1 <;> simp [hg, hs, h2, ho]
    · have h1 : 2 ^ k < v % 2 ^ (k + 1) := by rw [hm, hg]; omega
      simp [hg, hs, h1, h4]

/-- The highest set bit bounds a nonzero number from below and above. -/
theorem msb_bounds {v : Nat} (h : v ≠ 0) : 2 ^ msb v ≤ v ∧ v < 2 ^ (msb v + 1) :=
  ⟨Nat.log2_self_le h, Nat.lt_log2_self⟩

end Sys2Proof.Machine
end

