-- ==== Sys2Proof/Laws/State.lean ====
section
/-! SUPPORT. What each update of the state does to each field, and what the shared operations over the ports answer. -/

namespace Sys2Proof.Machine

@[simp] theorem State.present_cfg (s : State) (r : Request) : (s.present r).cfg = s.cfg := rfl
@[simp] theorem State.present_req (s : State) (r : Request) : (s.present r).req = some r := rfl
@[simp] theorem State.present_rsp (s : State) (r : Request) : (s.present r).rsp = s.rsp := rfl

@[simp] theorem State.release_cfg (s : State) : s.release.cfg = s.cfg := rfl
@[simp] theorem State.release_req (s : State) : s.release.req = none := rfl
@[simp] theorem State.release_rsp (s : State) : s.release.rsp = s.rsp := rfl

@[simp] theorem State.withRsp_cfg (s : State) (p : Option Response) : (s.withRsp p).cfg = s.cfg := rfl
@[simp] theorem State.withRsp_req (s : State) (p : Option Response) : (s.withRsp p).req = s.req := rfl
@[simp] theorem State.withRsp_rsp (s : State) (p : Option Response) : (s.withRsp p).rsp = p := rfl

@[simp] theorem State.withRsp_withRsp (s : State) (p q : Option Response) :
    (s.withRsp p).withRsp q = s.withRsp q := rfl

@[simp] theorem State.present_present (s : State) (q r : Request) : (s.present q).present r = s.present r := rfl

@[simp] theorem fetch_present (s : State) (r : Request) : fetch (s.present r) = some (decode r.toWord) := rfl
@[simp] theorem fetch_release (s : State) : fetch s.release = none := rfl
@[simp] theorem fetch_withRsp (s : State) (p : Option Response) : fetch (s.withRsp p) = fetch s := rfl

/-- A response on the ports is all that `respond` leaves. -/
theorem respond_next {y : BitVec 64} {flags : FlagSet} {s t : State} (h : respond y flags s = .next t) :
    t = s.withRsp (some { flags := flags, y := y }) := by
  simpa [respond, eq_comm] using h

/-- Undefined inputs leave the outputs without a value, and nothing else. -/
theorem undriven_next {s t : State} (h : undriven s = .next t) : t = s.withRsp none := by
  simpa [undriven, eq_comm] using h

/-! ## Each arm as its response -/

theorem exec_f16tof32 (h : Half) (s : State) :
    exec (.f16tof32 h) s = respond (zext64 (widen .binary32 h.toNat)) noFlags s := rfl

theorem exec_f32tof16 (w : Single) (s : State) :
    exec (.f32tof16 w) s =
      respond (zext64 (narrow s.cfg .binary32 w.toNat).r) (narrow s.cfg .binary32 w.toNat).flags s := rfl

theorem exec_f64tof16 (d : Double) (s : State) :
    exec (.f64tof16 d) s =
      respond (zext64 (narrow s.cfg .binary64 d.toNat).r) (narrow s.cfg .binary64 d.toNat).flags s := rfl

theorem exec_neg (x : Half) (s : State) : exec (.neg x) s = respond ((negHalf x).setWidth 64) noFlags s := rfl

theorem exec_copysign (x : Half) (g : BitVec 1) (s : State) :
    exec (.copysign x g) s = respond ((copysignHalf x g).setWidth 64) noFlags s := rfl

theorem exec_signbit (x : Half) (s : State) :
    exec (.signbit x) s = respond ((signOfHalf x).setWidth 64) noFlags s := rfl

theorem exec_abs (x : Half) (s : State) : exec (.abs x) s = respond ((absHalf x).setWidth 64) noFlags s := rfl

theorem exec_f16tof64 (h : Half) (s : State) :
    exec (.f16tof64 h) s = respond (zext64 (widen .binary64 h.toNat)) noFlags s := rfl

/-! ## The two cases of a step -/

theorem step_of_fetch {s : State} {i : Instr} (h : fetch s = some i) : step s = exec i s := by
  simp [step, h]

theorem step_of_no_fetch {s : State} (h : fetch s = none) : step s = undriven s := by
  simp [step, h]

end Sys2Proof.Machine
end

