-- ==== Sys2Proof/Tests/Slice0.lean ====
section
/-! SUPPORT. Tests, each with expected values from the spec (spec/95_test_vectors.md unless the comment says otherwise), and
for every statement with hypotheses a witness that meets them. -/

open Sys2Proof Sys2Proof.Machine

namespace Sys2Proof.Tests

/-- The response after one step on the request word `w` from reset, under `PRESERVE`. -/
def run (w : Nat) : Option Response :=
  match step (State.reset.withFetchWord 88 w) with
  | .next t => t.rsp
  | .fault _ => none
  | .refused _ => none

/-- The state of `CANONICAL` with the default mantissa, nothing driven. -/
def canonicalState : State := { State.reset with cfg := { State.reset.cfg with nanPolicy := .canonical } }

/-- As `run`, under `CANONICAL`. -/
def runCanonical (w : Nat) : Option Response :=
  match step (canonicalState.withFetchWord 88 w) with
  | .next t => t.rsp
  | .fault _ => none
  | .refused _ => none

/-! ## Well-formedness refuses what is ill formed -/

theorem test_wf_word_above_bit_82 : requestWordWf (2 ^ 83) = false := by decide
theorem test_wf_word_last : requestWordWf (2 ^ 83 - 1) = true := by decide
theorem test_wf_zero_canonical_mantissa : ({ nanPolicy := .canonical, canonicalNanMant := 0#10 } : Config).wf = false := by decide
theorem test_wf_copysign_needs_two_sources :
    ({ op := 4#3, dst := 0, srcA := .literal 0#64, srcB := none } : Caller.Line).wf = false := by decide

/-! ## Decoding: words written out from the pattern strings of spec/30_encoding.md section 4 -/

/-- `000`, 64 ignored ones, then `h`. -/
theorem test_decode_f16tof32 : decodeTableWord 88 0x0FFFFFFFFFFFFFFFF3C00 = some (.f16tof32 0x3C00#16) := by decide
/-- `001`, 48 ignored ones, then 32 bits `s`. -/
theorem test_decode_f32tof16 : decodeTableWord 88 0x1FFFFFFFFFFFF80000001 = some (.f32tof16 0x80000001#32) := by decide
/-- `010`, 16 ignored ones, then 64 bits `d`. -/
theorem test_decode_f64tof16 : decodeTableWord 88 0x2FFFF8000000000000001 = some (.f64tof16 0x8000000000000001#64) := by decide
/-- `011`, then `h` in the low 16 bits. -/
theorem test_decode_neg : decodeTableWord 88 0x30000FFFFFFFFFFFF8001 = some (.neg 0x8001#16) := by decide
/-- `100`, `g` = 1, 15 ignored zeros. -/
theorem test_decode_copysign_set : decodeTableWord 88 0x480000000000000001234 = some (.copysign 0x1234#16 1#1) := by decide
/-- `100`, `g` = 0, 15 ignored ones. -/
theorem test_decode_copysign_clear : decodeTableWord 88 0x47FFF0000000000001234 = some (.copysign 0x1234#16 0#1) := by decide
/-- `101`, then `h`. -/
theorem test_decode_signbit : decodeTableWord 88 0x50000000000000000FFFF = some (.signbit 0xFFFF#16) := by decide
/-- `110`, then `h`. -/
theorem test_decode_abs : decodeTableWord 88 0x60000000000000000C248 = some (.abs 0xC248#16) := by decide
/-- `111`, then `h`. -/
theorem test_decode_f16tof64 : decodeTableWord 88 0x700000000000000004248 = some (.f16tof64 0x4248#16) := by decide
/-- A bit above `REQ[82]` is on no port. -/
theorem test_decode_too_wide : decodeTableWord 88 (2 ^ 83) = none := by decide
/-- The `match` values of spec/opcode_table.json are the words of the operations with all operand bits 0. -/
theorem test_encode_match_values :
    encode (.f16tof32 0) = 0x000000000000000000000#83 ∧ encode (.f32tof16 0) = 0x100000000000000000000#83 ∧
    encode (.f64tof16 0) = 0x200000000000000000000#83 ∧ encode (.neg 0) = 0x300000000000000000000#83 ∧
    encode (.copysign 0 0) = 0x400000000000000000000#83 ∧ encode (.signbit 0) = 0x500000000000000000000#83 ∧
    encode (.abs 0) = 0x600000000000000000000#83 ∧ encode (.f16tof64 0) = 0x700000000000000000000#83 := by decide
/-- The request of program P5, line 3. -/
theorem test_encode_copysign : encode (Pseudo.copysign 0x7C01#16 0x8000#16) = 0x480000000000000007C01#83 := by decide

/-! ## One step: at most two an instruction -/

/-- Section 2.4: a subnormal with `k = 1` and a nonzero fraction. -/
theorem test_f16tof32_subnormal : run 0x00000000000000000003 = some ⟨0b0000#4, 0x34400000#64⟩ := by decide
/-- Section 2.4: a signaling NaN keeps payload and sign, and `a[63:16]` is ignored. -/
theorem test_f16tof32_nan : run 0x0FFFFFFFFFFFFFFFFFFFF = some ⟨0b0000#4, 0xFFFFE000#64⟩ := by decide
/-- Section 2.1: a tie in class SUBNORMAL that carries into the smallest normal. -/
theorem test_f32tof16_subnormal_carry : run 0x10000DEADBEEF387FE000 = some ⟨0b0011#4, 0x0400#64⟩ := by decide
/-- Section 2.1: -65520 carries to minus infinity. -/
theorem test_f32tof16_overflow : run 0x1000000000000C77FF000 = some ⟨0b0101#4, 0xFC00#64⟩ := by decide
/-- Section 2.2: shift 53, guard the leading 1, sticky from bit 0. -/
theorem test_f64tof16_just_above_tie : run 0x200003E60000000000001 = some ⟨0b0011#4, 0x0001#64⟩ := by decide
/-- Section 2.2: the double-rounding witness. -/
theorem test_f64tof16_single_rounding : run 0x200003FF0020000001000 = some ⟨0b0001#4, 0x3C01#64⟩ := by decide
/-- Section 2.3: the canonical NaN keeps the sign. -/
theorem test_f32tof16_canonical_nan : runCanonical 0x1000000000000FFA00000 = some ⟨0b0000#4, 0xFE00#64⟩ := by decide
/-- Section 2.1: the forced bit under `PRESERVE`. -/
theorem test_f32tof16_forced_bit : run 0x10000000000007F801FFF = some ⟨0b0000#4, 0x7C01#64⟩ := by decide
/-- Section 2.5: +0 to -0. -/
theorem test_neg_zero : run 0x300000000000000000000 = some ⟨0b0000#4, 0x8000#64⟩ := by decide
/-- Section 2.5: the sign of x is discarded, and a NaN gives its sign. -/
theorem test_copysign_from_nan : run 0x4FE000000000000003C00 = some ⟨0b0000#4, 0xBC00#64⟩ := by decide
/-- Section 2.5: `b[14:0]` all ones, `b[15]` = 0. -/
theorem test_copysign_clears : run 0x47FFF000000000000FFFF = some ⟨0b0000#4, 0x7FFF#64⟩ := by decide
/-- Section 2.5: -0 has its sign bit set. -/
theorem test_signbit_minus_zero : run 0x500000000000000008000 = some ⟨0b0000#4, 1#64⟩ := by decide
/-- Section 2.5: a NaN with the sign bit set. -/
theorem test_abs_nan : run 0x60000000000000000FE00 = some ⟨0b0000#4, 0x7E00#64⟩ := by decide
/-- Section 2.4: the largest subnormal. -/
theorem test_f16tof64_largest_subnormal : run 0x7000000000000000083FF = some ⟨0b0000#4, 0xBF0FF80000000000#64⟩ := by decide
/-- Section 2.4: all ones; the result fills all 64 bits. -/
theorem test_f16tof64_all_ones : run 0x70000000000000000FFFF = some ⟨0b0000#4, 0xFFFFFC0000000000#64⟩ := by decide
/-- spec/70_reset_and_hazards.md R180: nothing driven, nothing answered. -/
theorem test_step_from_reset_undriven : step State.reset = .next State.reset := rfl
/-- spec/40_formats.md R67: its five worked cases. -/
theorem test_rne_worked_cases :
    rne 0b1001 2 = ⟨0b10, true⟩ ∧ rne 0b1010 2 = ⟨0b10, true⟩ ∧ rne 0b1110 2 = ⟨0b100, true⟩ ∧
    rne 0b1011 2 = ⟨0b11, true⟩ ∧ rne 0b1000 2 = ⟨0b10, false⟩ := by decide
/-- spec/40_formats.md R64: landmarks of binary16. -/
theorem test_val_landmarks :
    Format.binary16.val 0x0001 = 1 / 2 ^ 24 ∧ Format.binary16.val 0x03FF = 1023 / 2 ^ 24 ∧
    Format.binary16.val 0x0400 = 1 / 2 ^ 14 ∧ Format.binary16.val 0x3C00 = 1 ∧ Format.binary16.val 0x7BFF = 65504 := by
  decide +kernel
/-- The host's listing, program P2 line 2: `COPYSIGN %0, 0x7BFF, %0` with `%0 = 0xFC00` and `{OF,NX}` accumulated. -/
theorem test_issue_copysign :
    (match Caller.issue { op := 4#3, dst := 0, srcA := .literal 0x7BFF#64, srcB := some (.variable 0) }
        { vars := [(0, 0xFC00#64)], acc := 0b0101#4 } State.reset with
      | .next (e, _) => e
      | .fault _ => { vars := [], acc := 0b0000#4 }
      | .refused _ => { vars := [], acc := 0b0000#4 }) = { vars := [(0, 0xFBFF#64)], acc := 0b0101#4 } := by decide

/-! ## Witnesses: for every statement with hypotheses, inputs that meet them all -/

/-- The state that has answered `F32TOF16` of 65520 with `{OF,NX}`. -/
def answered : State :=
  { cfg := Config.default
    req := some { op := 1#3, b := 0#16, a := 0x477FF000#64 }
    rsp := some { flags := 0b0101#4, y := 0x7C00#64 } }

theorem witness_EncodeAndDecodeAreInverse : (Instr.copysign 0x7BFF#16 1#1).wf = true := by decide

theorem witness_EveryRequestWordDecodes : 2 ^ 83 - 1 < 2 ^ 83 ∧ 2 ^ 83 ≤ 2 ^ 83 := by decide

theorem witness_IgnoredBitsDoNotMatter :
    (⟨4#3, 0x8123#16, 0x1234567800003C00#64⟩ : Request).toWord &&& readMask 4#3 =
      (⟨4#3, 0x8000#16, 0x3C00#64⟩ : Request).toWord &&& readMask 4#3 := by decide

theorem witness_StepRunsTheDecodedInstruction :
    answered.req = some ⟨1#3, 0#16, 0x477FF000#64⟩ ∧
    decode (⟨1#3, 0#16, 0x477FF000#64⟩ : Request).toWord = .f32tof16 0x477FF000#32 ∧
    (Instr.f32tof16 0x477FF000#32).wf = true := by decide

theorem witness_UndrivenInputsLeaveNoResponse : answered.release.req = none := rfl

theorem witness_PresentedWordIsRunNext :
    0x4FC000000000000007BFF < 2 ^ 88 ∧ decodeTableWord 88 0x4FC000000000000007BFF = some (.copysign 0x7BFF#16 1#1) := by decide

theorem witness_EveryOperationIsTotalAndPure :
    answered.req = some ⟨1#3, 0#16, 0x477FF000#64⟩ ∧ answered.req = (answered.withRsp none).req ∧
    answered.cfg = (answered.withRsp none).cfg ∧ answered ≠ answered.withRsp none := by decide

theorem witness_EarlierOperationsLeaveNoTrace :
    step (State.reset.present ⟨1#3, 0#16, 0x477FF000#64⟩) = .next answered := by rfl

theorem witness_StepPairsResponseWithRequest : step (answered.withRsp none) = .next answered := by rfl

theorem witness_StepKeepsTheInvariant : answered.Inv ∧ step answered = .next answered := by
  refine ⟨⟨by decide, ?_, fun _ _ => rfl, ?_⟩, rfl⟩
  · rintro p ⟨⟩; decide
  · rintro p ⟨⟩; exact ⟨_, rfl, by decide⟩

theorem witness_FieldsMakeUpThePattern :
    2 ^ 64 - 1 < 2 ^ Format.binary64.width ∧ (1 : Nat) < 2 ∧ 2047 < 2 ^ Format.binary64.expWidth ∧
    2 ^ 52 - 1 < 2 ^ Format.binary64.manWidth := by decide

/-- The first and last pattern of each class of binary16. -/
theorem witness_EveryPatternIsInOneClass :
    0xFFFF < 2 ^ Format.binary16.width ∧ Format.binary16.classify 0x8000 = .zero ∧
    Format.binary16.classify 0x0001 = .subnormal ∧ Format.binary16.classify 0x83FF = .subnormal ∧
    Format.binary16.classify 0x0400 = .normal ∧ Format.binary16.classify 0x7BFF = .normal ∧
    Format.binary16.classify 0x7C00 = .infinity ∧ Format.binary16.classify 0xFC01 = .nan ∧
    Format.binary16.classify 0xFFFF = .nan := by decide

/-- A tie: 6 / 4 lies between 1 and 2. -/
theorem witness_RneRoundsToNearestEven :
    (rne 6 2).q = 2 ∧ (1 : ℤ) ≠ (rne 6 2).q ∧ |((rne 6 2).q : ℤ) * 2 ^ 2 - 6| = |1 * 2 ^ 2 - 6| ∧ 1 ≤ 2 ∧ 5 ≤ 6 := by decide

/-- The ends of R83's ranges for binary32 (spec/41_narrowing.md R83, second table). -/
theorem witness_NarrowingClassesAsPatternRanges :
    [0x80000000, 0x32FFFFFF, 0x33000000, 0x387FFFFF, 0x38800000, 0x477FFFFF, 0x47800000, 0x7F7FFFFF, 0x7F800000,
      0x7F800001, 0xFFFFFFFF].map (fun p => narrowClass .binary32 (Format.binary32.split p)) =
    [.zero, .zero, .subnormal, .subnormal, .normal, .normal, .overflow, .overflow, .inf, .nan, .nan] := by decide

/-- The ends of R83's ranges for binary64. -/
theorem witness_NarrowingClassesAsPatternRanges_binary64 :
    [0x0, 0x3E5FFFFFFFFFFFFF, 0x3E60000000000000, 0x3F0FFFFFFFFFFFFF, 0x3F10000000000000, 0x40EFFFFFFFFFFFFF,
      0x40F0000000000000, 0x7FEFFFFFFFFFFFFF, 0x7FF0000000000000, 0x7FF0000000000001, 0xFFFFFFFFFFFFFFFF].map
        (fun p => narrowClass .binary64 (Format.binary64.split p)) =
    [.zero, .zero, .subnormal, .subnormal, .normal, .normal, .overflow, .overflow, .inf, .nan, .nan] := by decide

/-- A NaN whose top ten bits are zero, one whose top bits are not, and both policies. -/
theorem witness_NanNarrowsToNan :
    Written.narrowOperand (.f32tof16 0x7F801FFF#32) = some (.binary32, 0x7F801FFF) ∧
    Format.binary32.classify 0x7F801FFF = .nan ∧ (Format.binary32.split 0x7F801FFF).man / 2 ^ 13 = 0 ∧
    Format.binary32.classify 0x7F802000 = .nan ∧ (Format.binary32.split 0x7F802000).man / 2 ^ 13 ≠ 0 ∧
    State.reset.cfg.wf = true ∧ State.reset.cfg.nanPolicy = .preserve ∧
    canonicalState.cfg.wf = true ∧ canonicalState.cfg.nanPolicy = .canonical := by decide

/-- Operands at the ends R96 names: a zero and a carry in class SUBNORMAL, a carry to infinity in class NORMAL, and one
operand in each other class. -/
theorem witness_ResultsOfEachNarrowingClass :
    State.reset.cfg.wf = true ∧
    [0x32FFFFFF, 0x33000000, 0x387FE000, 0x38800000, 0x477FF000, 0x47800000, 0x7F800000, 0x7F800001].map
      (fun p => ((narrow Config.default .binary32 p).r, (narrow Config.default .binary32 p).flags)) =
    [(0, 0b0011#4), (0, 0b0011#4), (0x400, 0b0011#4), (0x400, 0b0000#4), (0x7C00, 0b0101#4), (0x7C00, 0b0101#4),
      (0x7C00, 0b0000#4), (0x7C01, 0b0000#4)] := by decide

theorem witness_FourSetsOfConditions :
    Written.narrowOperand (.f64tof16 1#64) = some (.binary64, 1) ∧
    legalFlags 0b0000#4 = true ∧ legalFlags 0b0001#4 = true ∧ legalFlags 0b0011#4 = true ∧ legalFlags 0b0101#4 = true := by decide

/-- 1 + 2^-11 lies as near to `0x3C01` as to its result `0x3C00`; 65520 is the first value that overflows. -/
theorem witness_NarrowingRoundsCorrectly :
    Written.narrowOperand (.f32tof16 0x3F801000#32) = some (.binary32, 0x3F801000) ∧
    Format.binary32.isFinite 0x3F801000 = true ∧ |Format.binary32.val 0x3F801000| < 65520 ∧
    Format.binary16.isFinite 0x3C01 = true ∧
    |Format.binary16.val 0x3C01 - Format.binary32.val 0x3F801000| =
      |Format.binary16.val 0x3C00 - Format.binary32.val 0x3F801000| ∧
    Format.binary16.val 0x3C01 ≠ Format.binary16.val 0x3C00 ∧
    Format.binary32.isFinite 0x477FF000 = true ∧ 65520 ≤ |Format.binary32.val 0x477FF000| := by decide +kernel

theorem witness_InexactSaysTheValueChanged :
    Written.narrowOperand (.f32tof16 0x477FE000#32) = some (.binary32, 0x477FE000) ∧
    Format.binary32.isFinite 0x477FE000 = true ∧ Format.binary32.isFinite 0x7F800000 = false := by decide

/-- Just below `2^-14`, and `2^-14`; 65520. -/
theorem witness_UnderflowAndOverflowByMagnitude :
    Written.narrowOperand (.f32tof16 0x387FFFFF#32) = some (.binary32, 0x387FFFFF) ∧
    Format.binary32.isFinite 0x387FFFFF = true ∧ |Format.binary32.val 0x387FFFFF| < 2 ^ (-14 : ℤ) ∧
    ¬ |Format.binary32.val 0x38800000| < 2 ^ (-14 : ℤ) ∧ 65520 ≤ |Format.binary32.val 0x477FF000| ∧
    ¬ 65520 ≤ |Format.binary32.val 0x477FEFFF| ∧ Format.binary32.isFinite 0xFF800000 = false := by decide +kernel

/-- 65504 as a binary32 lies below the largest binary64. -/
theorem witness_NarrowingIsMonotonic :
    Written.narrowOperand (.f32tof16 0x477FE000#32) = some (.binary32, 0x477FE000) ∧
    Written.narrowOperand (.f64tof16 0x40F0000000000000#64) = some (.binary64, 0x40F0000000000000) ∧
    Format.binary32.isFinite 0x477FE000 = true ∧ Format.binary64.isFinite 0x40F0000000000000 = true ∧
    Format.binary32.val 0x477FE000 ≤ Format.binary64.val 0x40F0000000000000 := by decide +kernel

theorem witness_WideningIsExact :
    Written.widenOperand (.f16tof64 0x8000#16) = some (.binary64, 0x8000#16) ∧
    Format.binary16.isFinite 0x8000 = true ∧ Format.binary16.classify 0x8000 = .zero ∧
    Format.binary16.classify 0xFC00 = .infinity ∧ Format.binary16.classify 0x7C01 = .nan := by decide

theorem witness_WideningIsInjective :
    exec (.f16tof32 0x7C01#16) State.reset = exec (.f16tof32 0x7C01#16) State.reset ∧
    exec (.f16tof64 0x7C01#16) State.reset = exec (.f16tof64 0x7C01#16) State.reset := ⟨rfl, rfl⟩

/-- Both arms of the condition under which a half does not come back as it was. -/
theorem witness_WidenThenNarrowRoundTrips :
    canonicalState.cfg.nanPolicy = .canonical ∧ Format.binary16.classify (0x7C01#16).toNat = .nan ∧
    State.reset.cfg.nanPolicy ≠ .canonical := by decide

/-- A finite half's widening is finite: that of the smallest subnormal. -/
theorem witness_WideningsAgree : Format.binary32.isFinite 0x33800000 = true := by decide

theorem witness_CopysignCombinesSignAndMagnitude : (1#1 : BitVec 1) = (0xBC00#16).extractLsb' 15 1 := by decide

theorem witness_WhichOperationsRaiseWhat :
    2 < 3 ∧ Written.narrowOperand (.copysign 0x3C00#16 1#1) = none := by decide

theorem witness_LineUpdatesItsTargetAndTheAccumulator :
    ({ op := 4#3, dst := 0, srcA := .literal 0x7BFF#64, srcB := some (.variable 0) } : Caller.Line).wf = true ∧
    (Caller.Env.read { vars := [(0, 0xFC00#64)], acc := 0#4 } (.literal 0x7BFF#64)) = .ok 0x7BFF#64 ∧
    (Caller.Env.readB { vars := [(0, 0xFC00#64)], acc := 0#4 } (some (.variable 0))) = .ok 0xFC00#64 ∧
    (1 : Nat) ≠ 0 := ⟨by decide, rfl, rfl, by decide⟩

theorem witness_SourceIsReadBeforeTargetIsWritten :
    ([(3, 0xBC00#64)] : List (Nat × BitVec 64)).lookup 3 = some ((0xBC00#16).setWidth 64) := by decide

theorem witness_UnwrittenVariableIsNotAssumedZero :
    ({ op := 4#3, dst := 0, srcA := .literal 0#64, srcB := some (.variable 1) } : Caller.Line).wf = true ∧
    ([(0, 0#64)] : List (Nat × BitVec 64)).lookup 1 = none ∧
    (Caller.Env.read { vars := [(0, 0#64)], acc := 0#4 } (.literal 0#64)) = .ok 0#64 ∧
    ({ op := 3#3, dst := 0, srcA := .variable 1, srcB := none } : Caller.Line).wf = true := ⟨by decide, by decide, rfl, by decide⟩

end Sys2Proof.Tests
end

section
/-! SUPPORT. What the flag sets, the rounded quotient and the narrowing classes are, each said once for the proofs below. -/

namespace Sys2Proof

/-! ## The Format Descriptor's derived constants -/

theorem Format.drop_add_ten (f : Format) : f.drop + 10 = f.manWidth := by cases f <;> rfl

theorem Format.tNorm_add_fourteen (f : Format) : f.tNorm + 14 = f.bias := by cases f <;> rfl

theorem Format.emax_lt (f : Format) : f.emax < 2 ^ f.expWidth := by cases f <;> decide

/-- A pattern put together from fields in their ranges has no bit above its width. -/
theorem Format.join_lt (f : Format) {x : Fields} (hs : x.sign < 2) (he : x.exp < 2 ^ f.expWidth)
    (hm : x.man < 2 ^ f.manWidth) : f.join x < 2 ^ f.width := by
  have hlow : x.exp * 2 ^ f.manWidth + x.man < 2 ^ (f.manWidth + f.expWidth) := by
    rw [pow_add]; nlinarith
  have hsign : x.sign * 2 ^ (f.manWidth + f.expWidth) ≤ 2 ^ (f.manWidth + f.expWidth) :=
    mul_le_of_le_one_left (Nat.zero_le _) (by omega)
  rw [f.join_eq_add x he hm, f.width_eq, Nat.add_sub_cancel, pow_succ]
  omega

namespace Machine

/-! ## The sets of conditions -/

theorem legalFlags_noFlags : legalFlags noFlags = true := by decide
theorem legalFlags_overflowFlags : legalFlags overflowFlags = true := by decide
theorem legalFlags_tinyFlags (b : Bool) : legalFlags (tinyFlags b) = true := by cases b <;> decide
theorem legalFlags_inexactFlags (b : Bool) : legalFlags (inexactFlags b) = true := by cases b <;> decide

/-! ## The rounded quotient -/

/-- An incremented number lies above `n` when the number does, or when it is `n`. -/
theorem lt_ite_succ_iff (n a : Nat) (c : Prop) [Decidable c] : (n < if c then a + 1 else a) ↔ n < a ∨ (n = a ∧ c) := by
  by_cases h : c <;> simp [h]
  omega

/-- The rounded quotient lies above `n` exactly when `v` lies above the midpoint of `n` and `n + 1`, or on it with
`n` odd. -/
theorem lt_rne_q_iff (v sh n : Nat) :
    n < (rne v sh).q ↔ (2 * n + 1) * 2 ^ sh < 2 * v ∨ ((2 * n + 1) * 2 ^ sh = 2 * v ∧ n % 2 = 1) := by
  rcases sh with - | k
  · simp [rne]; omega
  have hv : 2 ^ (k + 1) * (v / 2 ^ (k + 1)) + v % 2 ^ (k + 1) = v := Nat.div_add_mod ..
  have hr : v % 2 ^ (k + 1) < 2 ^ (k + 1) := Nat.mod_lt _ (by positivity)
  rw [rne_eq v (k + 1) (by omega), Nat.add_sub_cancel, lt_ite_succ_iff]
  generalize v / 2 ^ (k + 1) = a at *
  generalize v % 2 ^ (k + 1) = b at *
  rw [pow_succ] at *
  generalize 2 ^ k = half at *
  rcases lt_trichotomy n a with h | rfl | h
  · obtain ⟨d, rfl⟩ : ∃ d, a = n + 1 + d := ⟨a - n - 1, by omega⟩
    have : (2 * n + 1) * (half * 2) < 2 * v := by nlinarith
    simp [h, this]
  · have : (2 * n + 1) * (half * 2) + 2 * b = 2 * v + half * 2 := by nlinarith
    simp only [lt_irrefl, true_and, false_or]
    omega
  · obtain ⟨d, rfl⟩ : ∃ d, n = a + 1 + d := ⟨n - a - 1, by omega⟩
    have : 2 * v < (2 * (a + 1 + d) + 1) * (half * 2) := by nlinarith
    omega

/-- A quotient that fits `n` bits rounds to at most `2^n`: the carry out of its bits and no more. -/
theorem rne_q_le_two_pow {v sh n : Nat} (h : v < 2 ^ (sh + n)) : (rne v sh).q ≤ 2 ^ n := by
  by_contra hq
  have h2 : (2 * 2 ^ n + 1) * 2 ^ sh ≤ 2 * v := by
    rcases (lt_rne_q_iff v sh (2 ^ n)).1 (by omega) with h | ⟨h, -⟩ <;> omega
  rw [pow_add] at h
  nlinarith [Nat.one_le_two_pow (n := sh)]

/-! ## The narrowing's classes -/

/-- Every class of R81 with the exponent and mantissa fields that are in it. -/
theorem narrowClass_cases (f : Format) (x : Fields) :
    (narrowClass f x = .zero ∧ x.exp ≠ f.emax ∧ x.exp < f.tSub) ∨
    (narrowClass f x = .subnormal ∧ x.exp ≠ f.emax ∧ f.tSub ≤ x.exp ∧ x.exp < f.tNorm) ∨
    (narrowClass f x = .normal ∧ x.exp ≠ f.emax ∧ f.tNorm ≤ x.exp ∧ x.exp < f.tOvf) ∨
    (narrowClass f x = .overflow ∧ x.exp ≠ f.emax ∧ f.tOvf ≤ x.exp) ∨
    (narrowClass f x = .inf ∧ x.exp = f.emax ∧ x.man = 0) ∨
    (narrowClass f x = .nan ∧ x.exp = f.emax ∧ x.man ≠ 0) := by
  unfold narrowClass
  split_ifs <;> simp [*] <;> omega

end Machine
end Sys2Proof
end

section
/-! SUPPORT. The response of every operation as a function of the parameters and the instruction, and the bounds of its
result and its conditions. -/

namespace Sys2Proof.Machine

/-! ## The one response of each operation (spec/00_scope.md R7) -/

/-- A narrowing's half and conditions on the ports. -/
def Narrowed.toResponse (n : Narrowed) : Response := { flags := n.flags, y := zext64 n.r }

/-- What the block answers to an instruction, under the parameters of R5. -/
def answer (cfg : Config) : Instr → Response
  | .f16tof32 h => { flags := noFlags, y := zext64 (widen .binary32 h.toNat) }
  | .f32tof16 w => (narrow cfg .binary32 w.toNat).toResponse
  | .f64tof16 d => (narrow cfg .binary64 d.toNat).toResponse
  | .neg x => { flags := noFlags, y := (negHalf x).setWidth 64 }
  | .copysign x g => { flags := noFlags, y := (copysignHalf x g).setWidth 64 }
  | .signbit x => { flags := noFlags, y := (signOfHalf x).setWidth 64 }
  | .abs x => { flags := noFlags, y := (absHalf x).setWidth 64 }
  | .f16tof64 h => { flags := noFlags, y := zext64 (widen .binary64 h.toNat) }

/-- All that an operation does: its answer stands on the output ports, and nothing else has changed. -/
theorem exec_eq_answer (i : Instr) (s : State) : exec i s = .next (s.withRsp (some (answer s.cfg i))) := by
  cases i <;> rfl

/-- All that a step does. -/
theorem step_eq_answer (s : State) : step s = .next (s.withRsp ((fetch s).map (answer s.cfg))) := by
  cases h : fetch s with
  | none => rw [step_of_no_fetch h]; rfl
  | some i => rw [step_of_fetch h, exec_eq_answer]; rfl

/-- The one state a step can lead to. -/
theorem step_next {s t : State} (h : step s = .next t) : t = s.withRsp ((fetch s).map (answer s.cfg)) := by
  simpa [step_eq_answer, eq_comm] using h

theorem fetch_of_req {s : State} {r : Request} (h : s.req = some r) : fetch s = some (decode r.toWord) := by
  simp [fetch, h]

theorem fetch_congr {s t : State} (h : s.req = t.req) : fetch s = fetch t := by
  simp [fetch, h]

/-- An instruction is fetched from the request on the ports. -/
theorem req_of_fetch {s : State} {i : Instr} (h : fetch s = some i) : ∃ r, s.req = some r ∧ decode r.toWord = i := by
  cases hr : s.req with
  | none => simp [fetch, hr] at h
  | some r => exact ⟨r, rfl, by simpa [fetch, hr] using h⟩

/-! ## What a narrowing conversion narrows -/

theorem answer_of_narrowOperand {i : Instr} {f : Format} {p : Nat} (h : Written.narrowOperand i = some (f, p))
    (cfg : Config) : answer cfg i = (narrow cfg f p).toResponse := by
  cases i <;> cases h <;> rfl

/-! ## The narrowing's result and conditions -/

/-- A sign over a magnitude is a half pattern. -/
theorem halfOf_lt {sign mag : Nat} (hs : sign < 2) (hm : mag < 2 ^ 15) : halfOf sign mag < 2 ^ 16 := by
  rw [halfOf_eq_add sign mag hm]; omega

/-- Under `PRESERVE` a narrowed NaN keeps the top ten bits, with one forced where they are all zero (R90). -/
theorem nanMantissa_preserve {cfg : Config} (h : cfg.nanPolicy = .preserve) (f : Format) (x : Fields) :
    nanMantissa cfg f x = if x.man / 2 ^ f.drop = 0 then 1 else x.man / 2 ^ f.drop := by
  simp [nanMantissa, h, Nat.shiftRight_eq_div_pow]

/-- Under `CANONICAL` a narrowed NaN has the canonical mantissa (R90). -/
theorem nanMantissa_canonical {cfg : Config} (h : cfg.nanPolicy = .canonical) (f : Format) (x : Fields) :
    nanMantissa cfg f x = cfg.canonicalNanMant.toNat := by
  simp [nanMantissa, h]

/-- The narrowed NaN's mantissa fills ten bits (R90). -/
theorem nanMantissa_lt (cfg : Config) (f : Format) (p : Nat) : nanMantissa cfg f (f.split p) < 2 ^ 10 := by
  cases hpol : cfg.nanPolicy with
  | preserve =>
    have hm := f.split_man_lt p
    rw [← f.drop_add_ten, pow_add] at hm
    have htop := Nat.div_lt_of_lt_mul hm
    rw [nanMantissa_preserve hpol]
    split <;> omega
  | canonical =>
    rw [nanMantissa_canonical hpol]
    exact cfg.canonicalNanMant.isLt

/-- The magnitude of class `SUBNORMAL`'s result: a ten-bit field, or the carry to the smallest normal (R85). -/
theorem narrowSubnormal_q_le {f : Format} {x : Fields} (hm : x.man < 2 ^ f.manWidth) (he : x.exp < f.tNorm) :
    (rne (2 ^ f.manWidth ||| x.man) (f.tNorm - x.exp + f.drop)).q ≤ 2 ^ 10 := by
  apply rne_q_le_two_pow
  have hsig : 2 ^ f.manWidth ||| x.man < 2 ^ (f.manWidth + 1) :=
    Nat.or_lt_two_pow (Nat.pow_lt_pow_right (by decide) (by omega)) (by omega)
  have := f.drop_add_ten
  exact hsig.trans_le (Nat.pow_le_pow_right (by decide) (by omega))

/-- The mantissa of class `NORMAL` rounds to a ten-bit field, or to the carry into the exponent field (R86). -/
theorem narrowNormal_q_le {f : Format} {x : Fields} (hm : x.man < 2 ^ f.manWidth) : (rne x.man f.drop).q ≤ 2 ^ 10 :=
  rne_q_le_two_pow (by rwa [f.drop_add_ten])

/-- Below class `OVERFLOW` the half exponent field is at most 30. -/
theorem narrowNormal_exp_le {f : Format} {e : Nat} (he : e < f.tOvf) : e - f.rebias ≤ 30 := by
  have : f.tOvf ≤ f.rebias + 31 := by cases f <;> decide
  omega

/-- A narrowing gives a half pattern (spec/10_state.md R18). -/
theorem narrow_r_lt (cfg : Config) (f : Format) (p : Nat) : (narrow cfg f p).r < 2 ^ 16 := by
  have hs := f.split_sign_lt p
  have hm := f.split_man_lt p
  rcases narrowClass_cases f (f.split p) with ⟨c, -⟩ | ⟨c, -, -, he⟩ | ⟨c, -, -, he⟩ | ⟨c, -⟩ | ⟨c, -⟩ | ⟨c, -⟩
  · rw [narrow_zero c]
    exact halfOf_lt hs (by decide)
  · rw [narrow_subnormal c]
    exact halfOf_lt hs ((narrowSubnormal_q_le hm he).trans_lt (by decide))
  · rw [narrow_normal c]
    have hq := narrowNormal_q_le hm
    have he := narrowNormal_exp_le he
    simp only [narrowNormal, Nat.shiftLeft_eq]
    split
    · exact halfOf_lt hs (by decide)
    · exact halfOf_lt hs (by omega)
  · rw [narrow_overflow c]
    exact halfOf_lt hs (by decide)
  · rw [narrow_inf c]
    exact halfOf_lt hs (by decide)
  · rw [narrow_nan c]
    exact halfOf_lt hs (Nat.or_lt_two_pow (by decide) ((nanMantissa_lt cfg f p).trans (by decide)))

/-- A narrowing raises one of the four sets of R95. -/
theorem legalFlags_narrow (cfg : Config) (f : Format) (p : Nat) : legalFlags (narrow cfg f p).flags = true := by
  rcases narrowClass_cases f (f.split p) with ⟨c, -⟩ | ⟨c, -⟩ | ⟨c, -⟩ | ⟨c, -⟩ | ⟨c, -⟩ | ⟨c, -⟩
  · rw [narrow_zero c]
    exact legalFlags_tinyFlags _
  · rw [narrow_subnormal c]
    exact legalFlags_tinyFlags _
  · rw [narrow_normal c, narrowNormal]
    split
    · exact legalFlags_overflowFlags
    · exact legalFlags_inexactFlags _
  · rw [narrow_overflow c]
    exact legalFlags_overflowFlags
  · rw [narrow_inf c]
    exact legalFlags_noFlags
  · rw [narrow_nan c]
    exact legalFlags_noFlags

/-! ## The widening's result -/

/-- A widening gives a pattern of its target format (spec/10_state.md R18). -/
theorem widen_lt (f : Format) (h : Nat) : widen f h < 2 ^ f.width := by
  have hs := Format.binary16.split_sign_lt h
  have hm : (Format.binary16.split h).man < 2 ^ 10 := Format.binary16.split_man_lt h
  have he : (Format.binary16.split h).exp < 2 ^ 5 := Format.binary16.split_exp_lt h
  have hshift : ∀ {m : Nat}, m < 2 ^ 10 → m <<< f.drop < 2 ^ f.manWidth := fun {m} hlt => by
    rw [Nat.shiftLeft_eq, ← f.drop_add_ten, pow_add, Nat.mul_comm]
    exact Nat.mul_lt_mul_of_pos_left hlt (by positivity)
  cases c : Format.binary16.classify h with
  | zero =>
    rw [widen_zero c]
    exact f.join_lt hs (by positivity) (by positivity)
  | subnormal =>
    have hmsb : msb (Format.binary16.split h).man < 10 := by
      rcases eq_or_ne (Format.binary16.split h).man 0 with h0 | h0
      · rw [h0]; decide
      · exact (Nat.log2_lt h0).2 hm
    have hbase : f.subBase + 10 ≤ 2 ^ f.expWidth := by cases f <;> decide
    rw [widen_subnormal c]
    exact f.join_lt hs (by dsimp only; omega) (hshift (Nat.and_lt_two_pow _ (by decide)))
  | normal =>
    have hbase : f.rebias + 32 ≤ 2 ^ f.expWidth := by cases f <;> decide
    rw [widen_normal c]
    exact f.join_lt hs (by dsimp only; omega) (hshift hm)
  | infinity =>
    rw [widen_inf c]
    exact f.join_lt hs f.emax_lt (by positivity)
  | nan =>
    rw [widen_nan c]
    exact f.join_lt hs f.emax_lt (hshift hm)

/-! ## What holds of every answer -/

theorem legalFlags_answer (cfg : Config) (i : Instr) : legalFlags (answer cfg i).flags = true := by
  cases i with
  | f32tof16 w => exact legalFlags_narrow cfg .binary32 w.toNat
  | f64tof16 d => exact legalFlags_narrow cfg .binary64 d.toNat
  | f16tof32 _ | neg _ | copysign _ _ | signbit _ | abs _ | f16tof64 _ => exact legalFlags_noFlags

/-- A number that fits `n` bits still does on the port. -/
theorem zext64_toNat_lt {v n : Nat} (h : v < 2 ^ n) : (zext64 v).toNat < 2 ^ n :=
  (Nat.mod_le _ _).trans_lt h

/-- A zero-extended pattern fits its own width. -/
theorem toNat_setWidth_lt {n : Nat} (x : BitVec n) : (x.setWidth 64).toNat < 2 ^ n := by
  rw [BitVec.toNat_setWidth]
  exact (Nat.mod_le _ _).trans_lt x.isLt

theorem answer_y_lt (cfg : Config) (i : Instr) : (answer cfg i).y.toNat < 2 ^ i.resultWidth := by
  cases i with
  | f16tof32 h => exact zext64_toNat_lt (widen_lt .binary32 h.toNat)
  | f32tof16 w => exact zext64_toNat_lt (narrow_r_lt cfg .binary32 w.toNat)
  | f64tof16 d => exact zext64_toNat_lt (narrow_r_lt cfg .binary64 d.toNat)
  | neg x => exact toNat_setWidth_lt (negHalf x)
  | copysign x g => exact toNat_setWidth_lt (copysignHalf x g)
  | signbit x => exact toNat_setWidth_lt (signOfHalf x)
  | abs x => exact toNat_setWidth_lt (absHalf x)
  | f16tof64 h => exact zext64_toNat_lt (widen_lt .binary64 h.toNat)

/-- A step repeats itself: the ports it reads are the ones it leaves alone. -/
theorem step_step {s t : State} (h : step s = .next t) : step t = .next t := by
  obtain rfl := step_next h
  simp [step_eq_answer]

/-- A response after a step is the answer to the request on the ports. -/
theorem rsp_of_step {s t : State} (h : step s = .next t) {p : Response} (hp : t.rsp = some p) :
    ∃ r, t.req = some r ∧ p = answer s.cfg (decode r.toWord) := by
  obtain rfl := step_next h
  obtain ⟨i, hi, rfl⟩ := Option.map_eq_some_iff.1 hp
  obtain ⟨r, hr, rfl⟩ := req_of_fetch hi
  exact ⟨r, hr, rfl⟩

end Sys2Proof.Machine
end

section
/-! The invariant and the purity of a step. -/

namespace Sys2Proof.Proofs

open Sys2Proof.Machine

/-- Settles O15: the parameters are not touched, and whatever response a step leaves is the answer to the request on the
ports, whose conditions and width hold of every answer. -/
theorem stepKeepsTheInvariant : Obligations.StepKeepsTheInvariant := by
  intro s t hinv hstep
  obtain ⟨hcfg, -⟩ := hinv
  refine ⟨?_, fun p hp => ?_, fun _ _ => step_step hstep, fun p hp => ?_⟩
  · rwa [step_next hstep]
  · obtain ⟨r, -, rfl⟩ := rsp_of_step hstep hp
    exact legalFlags_answer _ _
  · obtain ⟨r, hr, rfl⟩ := rsp_of_step hstep hp
    exact ⟨r, hr, answer_y_lt _ _⟩

/-- Settles O16: with no response on the ports, only the default mantissa has to be looked at. -/
theorem resetMeetsTheInvariant : Obligations.ResetMeetsTheInvariant :=
  ⟨by decide, nofun, nofun, nofun⟩

/-- Settles O10: reset's fields are the values R5 and log entry 2 write down. -/
theorem resetHoldsTheDefaults : Obligations.ResetHoldsTheDefaults := ⟨rfl, rfl, rfl, rfl⟩

/-- Settles O11: a step's response is the answer to what is fetched, a function of the parameters and the request. -/
theorem everyOperationIsTotalAndPure : Obligations.EveryOperationIsTotalAndPure := by
  refine ⟨fun s r hr => ?_, fun s s' hreq hcfg => ?_⟩
  · exact ⟨answer s.cfg (decode r.toWord), by rw [step_eq_answer, fetch_of_req hr]; rfl⟩
  · refine ⟨(fetch s).map (answer s.cfg), step_eq_answer s, ?_⟩
    rw [step_eq_answer s', fetch_congr hreq, hcfg]; rfl

end Sys2Proof.Proofs
end

section
/-! SUPPORT. A narrowed NaN's bits, and the conditions and values of finite operands by their exponent field. -/

namespace Sys2Proof

/-! ## Values by the exponent field (spec/40_formats.md R63) -/

theorem Format.isFinite_iff (f : Format) (p : Nat) : f.isFinite p = true ↔ (f.split p).exp ≠ f.emax := by
  simp [Format.isFinite]

/-- The mantissa as a fraction of its field. -/
theorem Format.man_div_lt_one (f : Format) (p : Nat) : ((f.split p).man : ℚ) / 2 ^ f.manWidth < 1 := by
  rw [div_lt_one (by positivity)]
  exact_mod_cast f.split_man_lt p

theorem Format.abs_val_of_exp_zero {f : Format} {p : Nat} (h : (f.split p).exp = 0) :
    |f.val p| = (2 : ℚ) ^ (1 - (f.bias : ℤ)) * (((f.split p).man : ℚ) / 2 ^ f.manWidth) := by
  simp [Format.val, h, abs_mul, abs_div, abs_zpow]

theorem Format.abs_val_of_exp_ne_zero {f : Format} {p : Nat} (h : (f.split p).exp ≠ 0) :
    |f.val p| = (2 : ℚ) ^ (((f.split p).exp : ℤ) - f.bias) * (1 + ((f.split p).man : ℚ) / 2 ^ f.manWidth) := by
  have hpos : (0 : ℚ) ≤ 1 + ((f.split p).man : ℚ) / 2 ^ f.manWidth := by positivity
  simp [Format.val, h, abs_mul, abs_zpow, abs_of_nonneg hpos]

/-- The exponent field bounds the magnitude from above. -/
theorem Format.abs_val_lt (f : Format) (p : Nat) : |f.val p| < (2 : ℚ) ^ (((f.split p).exp : ℤ) - f.bias + 1) := by
  have hman := f.man_div_lt_one p
  rcases eq_or_ne (f.split p).exp 0 with h | h
  · rw [Format.abs_val_of_exp_zero h, h, Nat.cast_zero, zero_sub, neg_add_eq_sub]
    exact mul_lt_of_lt_one_right (by positivity) hman
  · rw [Format.abs_val_of_exp_ne_zero h, zpow_add_one₀ two_ne_zero]
    exact mul_lt_mul_of_pos_left (by linarith) (by positivity)

/-- The exponent field of a normal pattern bounds the magnitude from below. -/
theorem Format.le_abs_val {f : Format} {p : Nat} (h : (f.split p).exp ≠ 0) :
    (2 : ℚ) ^ (((f.split p).exp : ℤ) - f.bias) ≤ |f.val p| := by
  rw [Format.abs_val_of_exp_ne_zero h]
  exact le_mul_of_one_le_right (by positivity) (le_add_of_nonneg_right (by positivity))

/-- An exponent field `e > 0` splits the magnitudes at `2^(e - BIAS)`. -/
theorem Format.abs_val_lt_two_zpow_iff (f : Format) (p : Nat) {e : Nat} (he : e ≠ 0) :
    |f.val p| < (2 : ℚ) ^ ((e : ℤ) - f.bias) ↔ (f.split p).exp < e := by
  constructor
  · intro h
    by_contra hle
    have hexp : (2 : ℚ) ^ ((e : ℤ) - f.bias) ≤ 2 ^ (((f.split p).exp : ℤ) - f.bias) :=
      zpow_le_zpow_right₀ one_le_two (by omega)
    exact absurd h (not_lt.2 (hexp.trans (Format.le_abs_val (by omega))))
  · intro h
    exact (f.abs_val_lt p).trans_le (zpow_le_zpow_right₀ one_le_two (by omega))

/-- Below the half normal range is below the exponent field `T_NORM`. -/
theorem Format.abs_val_lt_minNormal_iff (f : Format) (p : Nat) :
    |f.val p| < (2 : ℚ) ^ (-14 : ℤ) ↔ (f.split p).exp < f.tNorm := by
  have hbias := f.tNorm_add_fourteen
  have hpos : f.tNorm ≠ 0 := by cases f <;> decide
  rw [← f.abs_val_lt_two_zpow_iff p hpos, ← hbias]
  norm_num

/-- The tie 65520 and what lies above it, by the fields: the exponent fields from `T_OVF` on, and in the last one below it
the mantissas from half a unit below the carry on. -/
theorem Format.tie_le_abs_val_iff (f : Format) (p : Nat) :
    65520 ≤ |f.val p| ↔
      f.tOvf ≤ (f.split p).exp ∨ ((f.split p).exp + 1 = f.tOvf ∧ 2047 * 2 ^ f.drop ≤ 2 * (f.split p).man) := by
  have hovf : f.tOvf = f.bias + 16 := rfl
  rcases lt_trichotomy ((f.split p).exp + 1) f.tOvf with h | h | h
  · have hlt : |f.val p| < (2 : ℚ) ^ (((f.bias + 15 : ℕ) : ℤ) - f.bias) :=
      (f.abs_val_lt_two_zpow_iff p (by omega)).2 (by omega)
    have hexp : ((f.bias + 15 : ℕ) : ℤ) - f.bias = 15 := by omega
    rw [hexp] at hlt
    norm_num at hlt
    exact iff_of_false (by linarith) (by omega)
  · have hexp : ((f.split p).exp : ℤ) - f.bias = 15 := by omega
    have hval := Format.abs_val_of_exp_ne_zero (by omega : (f.split p).exp ≠ 0)
    rw [hexp, ← f.drop_add_ten, pow_add] at hval
    have hcarry : (2047 * 2 ^ f.drop ≤ 2 * (f.split p).man) ↔ (2047 : ℚ) * 2 ^ f.drop ≤ 2 * (f.split p).man := by
      exact_mod_cast Iff.rfl
    have hfrac : 65520 ≤ |f.val p| ↔ (2047 : ℚ) / 2048 ≤ ((f.split p).man : ℚ) / (2 ^ f.drop * 2 ^ 10) := by
      rw [hval]; norm_num; constructor <;> intro _ <;> linarith
    rw [hfrac, div_le_div_iff₀ (by norm_num) (by positivity), hcarry]
    simp only [h, true_and, show ¬ f.tOvf ≤ (f.split p).exp by omega, false_or]
    constructor <;> intro _ <;> linarith
  · have hge : ¬ |f.val p| < (2 : ℚ) ^ (((f.bias + 16 : ℕ) : ℤ) - f.bias) := by
      rw [f.abs_val_lt_two_zpow_iff p (by omega)]; omega
    have hexp : ((f.bias + 16 : ℕ) : ℤ) - f.bias = 16 := by omega
    rw [hexp] at hge
    norm_num at hge
    exact iff_of_true (by linarith) (by omega)

namespace Machine

/-! ## Single conditions -/

@[simp] theorem tinyFlags_NX (b : Bool) : (tinyFlags b)[0] = b := by cases b <;> rfl
@[simp] theorem tinyFlags_UF (b : Bool) : (tinyFlags b)[1] = b := by cases b <;> rfl
@[simp] theorem tinyFlags_OF (b : Bool) : (tinyFlags b)[2] = false := by cases b <;> rfl
@[simp] theorem inexactFlags_NX (b : Bool) : (inexactFlags b)[0] = b := by cases b <;> rfl
@[simp] theorem inexactFlags_UF (b : Bool) : (inexactFlags b)[1] = false := by cases b <;> rfl
@[simp] theorem inexactFlags_OF (b : Bool) : (inexactFlags b)[2] = false := by cases b <;> rfl
@[simp] theorem overflowFlags_NX : overflowFlags[0] = true := rfl
@[simp] theorem overflowFlags_UF : overflowFlags[1] = false := rfl
@[simp] theorem overflowFlags_OF : overflowFlags[2] = true := rfl
@[simp] theorem noFlags_UF : noFlags[1] = false := rfl
@[simp] theorem noFlags_OF : noFlags[2] = false := rfl

/-! ## The conditions of a narrowing -/

/-- Class `NORMAL` reaches the infinity from the last exponent field, by a mantissa that rounds up to the carry. -/
theorem narrowNormal_carries_iff {f : Format} {x : Fields} (hm : x.man < 2 ^ f.manWidth) (he : x.exp < f.tOvf) :
    ((x.exp - f.rebias) <<< 10) + (rne x.man f.drop).q = 0x7C00 ↔
      x.exp + 1 = f.tOvf ∧ 2047 * 2 ^ f.drop ≤ 2 * x.man := by
  have hq := narrowNormal_q_le hm
  have hrebias : f.rebias + 31 = f.tOvf := by cases f <;> rfl
  have hcarry : 1023 < (rne x.man f.drop).q ↔ 2047 * 2 ^ f.drop ≤ 2 * x.man := by
    rw [lt_rne_q_iff, le_iff_lt_or_eq]; norm_num
  rw [← hcarry, Nat.shiftLeft_eq]
  omega

/-- `UF` is `NX` below the half normal range, for a finite operand (R84 to R87). -/
theorem narrow_flags_UF_iff (cfg : Config) (f : Format) (p : Nat) (hfin : f.isFinite p = true) :
    (narrow cfg f p).flags.getLsbD 1 = true ↔
      (narrow cfg f p).flags.getLsbD 0 = true ∧ (f.split p).exp < f.tNorm := by
  have hsub : f.tSub ≤ f.tNorm := Nat.sub_le_sub_left (by decide) _
  have hnorm : f.tNorm ≤ f.tOvf := (Nat.sub_le _ _).trans (Nat.le_add_right _ _)
  rw [f.isFinite_iff] at hfin
  rcases narrowClass_cases f (f.split p) with ⟨c, -, he⟩ | ⟨c, -, -, he⟩ | ⟨c, -, he, -⟩ | ⟨c, -, he⟩ |
      ⟨-, he, -⟩ | ⟨-, he, -⟩
  · simp [narrow_zero c, narrowZero, he.trans_le hsub]
  · simp [narrow_subnormal c, narrowSubnormal, he]
  · rw [narrow_normal c, narrowNormal]
    split <;> simp [he]
  · simp [narrow_overflow c, narrowOverflow, hnorm.trans he]
  · exact absurd he hfin
  · exact absurd he hfin

/-- `OF` is raised from the tie below the carry to the infinity on, for a finite operand (R86, R87). -/
theorem narrow_flags_OF_iff (cfg : Config) (f : Format) (p : Nat) (hfin : f.isFinite p = true) :
    (narrow cfg f p).flags.getLsbD 2 = true ↔
      f.tOvf ≤ (f.split p).exp ∨ ((f.split p).exp + 1 = f.tOvf ∧ 2047 * 2 ^ f.drop ≤ 2 * (f.split p).man) := by
  have hgap : f.tSub < f.tOvf - 1 ∧ f.tNorm < f.tOvf - 1 := by cases f <;> decide
  rw [f.isFinite_iff] at hfin
  rcases narrowClass_cases f (f.split p) with ⟨c, -, he⟩ | ⟨c, -, -, he⟩ | ⟨c, -, -, he⟩ | ⟨c, -, he⟩ |
      ⟨-, he, -⟩ | ⟨-, he, -⟩
  · exact iff_of_false (by simp [narrow_zero c, narrowZero]) (by omega)
  · exact iff_of_false (by simp [narrow_subnormal c, narrowSubnormal]) (by omega)
  · have hcarry := narrowNormal_carries_iff (f.split_man_lt p) he
    rw [or_iff_right (by omega), narrow_normal c, narrowNormal]
    split
    case isTrue h => exact iff_of_true (by simp) (hcarry.1 h)
    case isFalse h => exact iff_of_false (by simp) (mt hcarry.2 h)
  · simp [narrow_overflow c, narrowOverflow, he]
  · exact absurd he hfin
  · exact absurd he hfin

/-- An infinity or a NaN raises nothing (R89, R90). -/
theorem narrow_flags_of_not_finite (cfg : Config) {f : Format} {p : Nat} (hfin : f.isFinite p = false) :
    (narrow cfg f p).flags = noFlags := by
  have hexp : (f.split p).exp = f.emax := by simpa [Format.isFinite] using hfin
  rcases narrowClass_cases f (f.split p) with ⟨-, he, -⟩ | ⟨-, he, -⟩ | ⟨-, he, -⟩ | ⟨-, he, -⟩ | ⟨c, -⟩ | ⟨c, -⟩
  · exact absurd hexp he
  · exact absurd hexp he
  · exact absurd hexp he
  · exact absurd hexp he
  · rw [narrow_inf c]; rfl
  · rw [narrow_nan c]; rfl

/-! ## A narrowed NaN -/

/-- A NaN of R62 is in class `NAN` of R81. -/
theorem narrowClass_of_classify_nan {f : Format} {p : Nat} (h : f.classify p = .nan) :
    narrowClass f (f.split p) = .nan := by
  unfold Format.classify Format.classOf at h
  unfold narrowClass
  split_ifs at h ⊢
  rfl

theorem nanMantissa_ne_zero {cfg : Config} (hcfg : cfg.wf = true) (f : Format) (x : Fields) :
    nanMantissa cfg f x ≠ 0 := by
  cases hpol : cfg.nanPolicy with
  | preserve =>
    rw [nanMantissa_preserve hpol]
    split <;> omega
  | canonical =>
    have hne : cfg.canonicalNanMant ≠ 0#10 := by simpa [Config.wf] using hcfg
    rw [nanMantissa_canonical hpol]
    exact fun h0 => hne (BitVec.eq_of_toNat_eq h0)

/-- Sign, all-ones exponent and mantissa, put together as numbers, are the three fields of the half pattern. -/
theorem halfOf_nan_eq_toNat {sign : Nat} (hs : sign < 2) (m : BitVec 10) :
    halfOf sign (0x7C00 ||| m.toNat) = (BitVec.ofNat 1 sign ++ 0x1F#5 ++ m).toNat := by
  rw [BitVec.toNat_append, BitVec.toNat_append, BitVec.toNat_ofNat, Nat.mod_eq_of_lt hs, Nat.shiftLeft_or_distrib,
    ← Nat.shiftLeft_add, Nat.or_assoc]
  rfl

end Machine
end Sys2Proof
end

section
/-! What narrowing does with NaNs, and the conditions by magnitude. -/

namespace Sys2Proof.Proofs

open Sys2Proof.Machine

/-- Settles O27: the NaN's mantissa fills ten bits, is nonzero under either policy, and stands under the sign and the
all-ones exponent. -/
theorem nanNarrowsToNan : Obligations.NanNarrowsToNan := by
  intro i f p s hi hnan hcfg
  have hm : (BitVec.ofNat 10 (nanMantissa s.cfg f (f.split p))).toNat = nanMantissa s.cfg f (f.split p) :=
    Nat.mod_eq_of_lt (nanMantissa_lt s.cfg f p)
  have hdrop : f.manWidth - 10 = f.drop := rfl
  refine ⟨BitVec.ofNat 10 (nanMantissa s.cfg f (f.split p)), fun h0 => ?_, ?_, fun hpol => ?_, fun hpol => ?_⟩
  · rw [h0] at hm
    exact nanMantissa_ne_zero hcfg f (f.split p) hm.symm
  · rw [exec_eq_answer, answer_of_narrowOperand hi, narrow_nan (narrowClass_of_classify_nan hnan), narrowNan, ← hm,
      halfOf_nan_eq_toNat (f.split_sign_lt p), hm, ← BitVec.ofNat_toNat]
    rfl
  · rw [nanMantissa_canonical hpol, BitVec.ofNat_toNat, BitVec.setWidth_eq]
  · rw [nanMantissa_preserve hpol] at hm ⊢
    rw [hdrop]
    refine ⟨fun htop => ?_, fun htop => ?_⟩
    · rw [hm, if_neg htop]
    · rw [if_pos htop]

/-- Settles O32: the classes of R81 and the carry of R86 are conditions on the fields, and so are the two magnitudes. -/
theorem underflowAndOverflowByMagnitude : Obligations.UnderflowAndOverflowByMagnitude := by
  intro i f p s hi
  refine ⟨(narrow s.cfg f p).toResponse, ?_, fun hfin => ⟨?_, ?_⟩, fun hfin => ?_⟩
  · rw [exec_eq_answer, answer_of_narrowOperand hi]; rfl
  · rw [Format.abs_val_lt_minNormal_iff]
    exact narrow_flags_UF_iff s.cfg f p hfin
  · rw [Format.tie_le_abs_val_iff]
    exact narrow_flags_OF_iff s.cfg f p hfin
  · simp [Narrowed.toResponse, narrow_flags_of_not_finite s.cfg hfin]

end Sys2Proof.Proofs
end

section
/-! SUPPORT. The ports of a bundle's word, and what the decoder keeps of a request. -/

namespace Sys2Proof

/-! ## The ports of a word (spec/30_encoding.md R40, R41) -/

@[simp] theorem Request.toWord_a (r : Request) : r.toWord.extractLsb' 0 64 = r.a :=
  BitVec.extractLsb'_append_eq_right

@[simp] theorem Request.toWord_b (r : Request) : r.toWord.extractLsb' 64 16 = r.b :=
  calc r.toWord.extractLsb' 64 16
    _ = (r.op ++ r.b).extractLsb' 0 16 := BitVec.extractLsb'_append_eq_of_le le_rfl
    _ = r.b := BitVec.extractLsb'_append_eq_right

@[simp] theorem Request.ofWord_toWord (r : Request) : Request.ofWord r.toWord = r := by
  rw [Request.ofWord, Request.toWord_op, Request.toWord_b, Request.toWord_a]

theorem Response.toWord_flags (p : Response) : p.toWord.extractLsb' 64 4 = p.flags :=
  BitVec.extractLsb'_append_eq_left

theorem Response.toWord_y (p : Response) : p.toWord.extractLsb' 0 64 = p.y :=
  BitVec.extractLsb'_append_eq_right

@[simp] theorem decode_toWord (r : Request) : decode r.toWord = decodeRequest r := by
  rw [decode, Request.ofWord_toWord]

/-! ## Operands on a port (spec/30_encoding.md R44): read back, and written again -/

theorem halfOperand_setWidth (h : Half) : halfOperand (h.setWidth 64) = h :=
  (BitVec.extractLsb'_setWidth_of_le (by decide)).trans BitVec.extractLsb'_eq_self

theorem singleOperand_setWidth (w : Single) : singleOperand (w.setWidth 64) = w :=
  (BitVec.extractLsb'_setWidth_of_le (by decide)).trans BitVec.extractLsb'_eq_self

theorem signSource_append (g : BitVec 1) : signSource (g ++ 0#15) = g :=
  BitVec.extractLsb'_append_eq_left

/-- Cutting a port to its low `n` bits is masking it with `n` ones. -/
theorem setWidth_extractLsb'_eq_and {n : Nat} (a m : BitVec 64) (hm : m.toNat = 2 ^ n - 1) (hn : n ≤ 64) :
    (a.extractLsb' 0 n).setWidth 64 = a &&& m := by
  apply BitVec.eq_of_toNat_eq
  rw [BitVec.toNat_setWidth_of_le hn, BitVec.extractLsb'_toNat, Nat.shiftRight_zero, BitVec.toNat_and, hm,
    Nat.and_two_pow_sub_one_eq_mod]

theorem setWidth_halfOperand (a : BitVec 64) : (halfOperand a).setWidth 64 = a &&& 0xFFFF#64 :=
  setWidth_extractLsb'_eq_and a _ rfl (by decide)

theorem setWidth_singleOperand (a : BitVec 64) : (singleOperand a).setWidth 64 = a &&& 0xFFFFFFFF#64 :=
  setWidth_extractLsb'_eq_and a _ rfl (by decide)

theorem signSource_append_zero (b : BitVec 16) : signSource b ++ 0#15 = b &&& 0x8000#16 :=
  calc signSource b ++ 0#15
    _ = (b.extractLsb' 15 1 &&& 1#1) ++ (b.extractLsb' 0 15 &&& 0#15) := by
      rw [BitVec.and_zero, signSource]; exact congrArg (· ++ 0#15) BitVec.and_allOnes.symm
    _ = (b.extractLsb' 15 1 ++ b.extractLsb' 0 15 : BitVec 16) &&& (1#1 ++ 0#15) := BitVec.and_append.symm
    _ = b &&& 0x8000#16 := congrArg (· &&& 0x8000#16) BitVec.extractLsb'_append_extractLsb'

/-! ## The read mask, port by port (spec/10_state.md R17) -/

/-- What of each port an operation reads. -/
def readPorts (op : BitVec 3) : Request :=
  match op.toFin with
  | 1 => { op := 7#3, b := 0#16, a := 0xFFFFFFFF#64 }
  | 2 => { op := 7#3, b := 0#16, a := 0xFFFFFFFFFFFFFFFF#64 }
  | 4 => { op := 7#3, b := 0x8000#16, a := 0xFFFF#64 }
  | _ => { op := 7#3, b := 0#16, a := 0xFFFF#64 }

theorem readMask_eq_toWord (op : BitVec 3) : readMask op = (readPorts op).toWord := by
  revert op; decide

/-- Every operation reads the whole opcode. -/
theorem and_readPorts_op (x op : BitVec 3) : x &&& (readPorts op).op = x := by
  have hop : (readPorts op).op = BitVec.allOnes 3 := by revert op; decide
  rw [hop, BitVec.and_allOnes]

theorem toWord_and_readMask_op (r : Request) (op : BitVec 3) : (r.toWord &&& readMask op).extractLsb' 80 3 = r.op := by
  rw [readMask_eq_toWord, Request.toWord_and, Request.toWord_op, and_readPorts_op]

/-! ## Decoding and encoding -/

theorem decodeRequest_toRequest (i : Instr) : decodeRequest i.toRequest = i := by
  cases i with
  | f16tof32 h => exact congrArg Instr.f16tof32 (halfOperand_setWidth h)
  | f32tof16 w => exact congrArg Instr.f32tof16 (singleOperand_setWidth w)
  | f64tof16 d => rfl
  | neg x => exact congrArg Instr.neg (halfOperand_setWidth x)
  | copysign x g => exact congrArg₂ Instr.copysign (halfOperand_setWidth x) (signSource_append g)
  | signbit x => exact congrArg Instr.signbit (halfOperand_setWidth x)
  | abs x => exact congrArg Instr.abs (halfOperand_setWidth x)
  | f16tof64 h => exact congrArg Instr.f16tof64 (halfOperand_setWidth h)

@[simp] theorem decode_encode (i : Instr) : decode (encode i) = i :=
  (decode_toWord i.toRequest).trans (decodeRequest_toRequest i)

theorem decodeWord_toNat (w : BitVec 83) : decodeWord w.toNat = .ok (decode w) := by
  simp [decodeWord, requestWordWf, w.isLt]

theorem opcode_decodeRequest : ∀ r : Request, (decodeRequest r).opcode = r.op
  | ⟨⟨0⟩, _, _⟩ | ⟨⟨1⟩, _, _⟩ | ⟨⟨2⟩, _, _⟩ | ⟨⟨3⟩, _, _⟩ | ⟨⟨4⟩, _, _⟩ | ⟨⟨5⟩, _, _⟩ | ⟨⟨6⟩, _, _⟩ | ⟨⟨7⟩, _, _⟩ => rfl

theorem portA_decodeRequest : ∀ r : Request, (decodeRequest r).portA = r.a &&& (readPorts r.op).a
  | ⟨⟨0⟩, _, a⟩ | ⟨⟨3⟩, _, a⟩ | ⟨⟨4⟩, _, a⟩ | ⟨⟨5⟩, _, a⟩ | ⟨⟨6⟩, _, a⟩ | ⟨⟨7⟩, _, a⟩ => setWidth_halfOperand a
  | ⟨⟨1⟩, _, a⟩ => setWidth_singleOperand a
  | ⟨⟨2⟩, _, _⟩ => BitVec.and_allOnes.symm

theorem portB_decodeRequest : ∀ r : Request, (decodeRequest r).portB = r.b &&& (readPorts r.op).b
  | ⟨⟨4⟩, b, _⟩ => signSource_append_zero b
  | ⟨⟨0⟩, _, _⟩ | ⟨⟨1⟩, _, _⟩ | ⟨⟨2⟩, _, _⟩ | ⟨⟨3⟩, _, _⟩ | ⟨⟨5⟩, _, _⟩ | ⟨⟨6⟩, _, _⟩ | ⟨⟨7⟩, _, _⟩ =>
    BitVec.and_zero.symm

/-- Encoding a decoded request keeps the bits its operation reads. -/
theorem encode_decodeRequest (r : Request) : encode (decodeRequest r) = r.toWord &&& readMask r.op := by
  rw [readMask_eq_toWord, Request.toWord_and, and_readPorts_op, ← portB_decodeRequest, ← portA_decodeRequest, encode,
    Instr.toRequest, opcode_decodeRequest]

/-- Requests that agree on the bits the first one's operation reads are one operation: the mask keeps the opcode, and
what it keeps of a request encodes what the request decodes to. -/
theorem decodeRequest_congr_of_readMask {r r' : Request}
    (h : r.toWord &&& readMask r.op = r'.toWord &&& readMask r.op) : decodeRequest r = decodeRequest r' := by
  have hop : r.op = r'.op := by rw [← toWord_and_readMask_op r r.op, h, toWord_and_readMask_op]
  calc decodeRequest r
    _ = decode (encode (decodeRequest r)) := (decode_encode _).symm
    _ = decode (encode (decodeRequest r')) := by rw [encode_decodeRequest, h, hop, encode_decodeRequest]
    _ = decodeRequest r' := decode_encode _

end Sys2Proof
end

section
/-! The words of the two bundles, and the frame of every operation. -/

namespace Sys2Proof.Proofs

open Sys2Proof.Machine

/-- Settles O1: the decoder reads back each operand the encoder writes, and the encoder writes back each port under the
read mask. -/
theorem encodeAndDecodeAreInverse : Obligations.EncodeAndDecodeAreInverse := by
  refine ⟨fun i _ => ⟨decode_encode i, ?_⟩, fun w => ?_⟩
  · rw [decodeWord_toNat, decode_encode]
  · have h := encode_decodeRequest (Request.ofWord w)
    rwa [Request.toWord_ofWord] at h

/-- Settles O6: the two requests decode to one instruction, and a step answers the decoded instruction. -/
theorem ignoredBitsDoNotMatter : Obligations.IgnoredBitsDoNotMatter := by
  intro s r r' h
  have hdecode : decode r'.toWord = decode r.toWord := by
    rw [decode_toWord, decode_toWord, decodeRequest_congr_of_readMask h]
  refine ⟨answer s.cfg (decode r.toWord), step_eq_answer _, ?_⟩
  rw [← hdecode]
  exact step_eq_answer _

/-- Settles O17: the answer of each operation fits its width, and the widths are R44's. -/
theorem resultBitsAboveTheWidthAreZero : Obligations.ResultBitsAboveTheWidthAreZero :=
  ⟨fun i s => ⟨answer s.cfg i, exec_eq_answer i s, answer_y_lt s.cfg i⟩, fun _ => rfl, fun _ => rfl, fun _ => rfl,
    fun _ => rfl, fun _ _ => rfl, fun _ => rfl, fun _ => rfl⟩

/-- Settles O5: each port is a slice of the concatenation that makes up its bundle's word. -/
theorem bundleWordsAreTheirPorts : Obligations.BundleWordsAreTheirPorts :=
  ⟨fun r => ⟨r.toWord_op, r.toWord_b, r.toWord_a, r.ofWord_toWord⟩, fun p => ⟨p.toWord_flags, p.toWord_y⟩⟩

/-- Settles O12: an operation answers by placing its response, and the two other fields of the state are not written. -/
theorem operationsChangeTheResponseOnly : Obligations.OperationsChangeTheResponseOnly := by
  intro i s
  exact ⟨s.withRsp (some (answer s.cfg i)), exec_eq_answer i s, rfl, rfl, rfl⟩

end Sys2Proof.Proofs
end

section
/-! The pairing of request and response. -/

namespace Sys2Proof.Proofs

open Sys2Proof.Machine

/-- Settles O14: a step reads the request and the parameters and writes neither, so the next step repeats it
(`step_step`), whichever response stands on the ports. -/
theorem stepPairsResponseWithRequest : Obligations.StepPairsResponseWithRequest := by
  intro s t hstep
  have hagain : step t = .next t := step_step hstep
  exact ⟨fun _ _ => hagain, hagain⟩

end Sys2Proof.Proofs
end

section
/-! SUPPORT. What the decoder answers to a number, to an opcode over two ports, and to a word presented for the next
step. -/

namespace Sys2Proof

/-- A concatenation of ports decodes as the request with these ports (spec/30_encoding.md R40). -/
theorem decode_append (op : BitVec 3) (b : BitVec 16) (a : BitVec 64) :
    decode (op ++ b ++ a : BitVec 83) = decodeRequest { op := op, b := b, a := a } :=
  decode_toWord { op := op, b := b, a := a }

theorem decodeWord_of_lt {w : Nat} (h : w < 2 ^ 83) : decodeWord w = .ok (decode (BitVec.ofNat 83 w)) := by
  have hwf : requestWordWf w = true := decide_eq_true h
  rw [decodeWord, if_pos hwf]

theorem decodeWord_of_le {w : Nat} (h : 2 ^ 83 ≤ w) : decodeWord w = .error .widerThanRequest := by
  have hwf : ¬ requestWordWf w = true := by simpa [requestWordWf] using h
  rw [decodeWord, if_neg hwf]

/-- A word that decodes is the request its low 83 bits make up. -/
theorem decode_of_decodeWord {w : Nat} {i : Instr} (h : decodeWord w = .ok i) : decode (BitVec.ofNat 83 w) = i := by
  rcases Nat.lt_or_ge w (2 ^ 83) with hw | hw
  · rw [decodeWord_of_lt hw] at h
    exact Except.ok.inj h
  · rw [decodeWord_of_le hw] at h
    nomatch h

theorem decodeTableWord_eq_some_iff {nbits w : Nat} {i : Instr} :
    decodeTableWord nbits w = some i ↔ decodeWord (w % 2 ^ nbits) = .ok i := by
  unfold decodeTableWord
  cases decodeWord (w % 2 ^ nbits) <;> simp

namespace Machine

@[simp] theorem State.withFetchWord_cfg (s : State) (nbits w : Nat) : (s.withFetchWord nbits w).cfg = s.cfg := rfl
@[simp] theorem State.withFetchWord_rsp (s : State) (nbits w : Nat) : (s.withFetchWord nbits w).rsp = s.rsp := rfl

@[simp] theorem fetch_withFetchWord (s : State) (nbits w : Nat) :
    fetch (s.withFetchWord nbits w) = some (decode (BitVec.ofNat 83 (w % 2 ^ nbits))) := by
  rw [State.withFetchWord, fetch_present, Request.toWord_ofWord]

end Machine
end Sys2Proof
end

section
/-! SUPPORT. One line of a listing, from its request to the host's variables. -/

namespace Sys2Proof.Caller

open Sys2Proof.Machine

/-- The operation a line issues, on the values of its sources (spec/30_encoding.md R44, R47). -/
def lineInstr (op : BitVec 3) (a b : BitVec 64) : Instr := decodeRequest { op := op, b := b.setWidth 16, a := a }

/-- Writing a line's ignored bits as 0 leaves its operation as it is. -/
theorem decodeRequest_lineRequest (op : BitVec 3) (a b : BitVec 64) :
    decodeRequest (lineRequest op a b) = lineInstr op a b :=
  decodeRequest_toRequest (lineInstr op a b)

/-- A step on a line's request answers its operation. -/
theorem step_present_lineRequest (s : State) (op : BitVec 3) (a b : BitVec 64) :
    step (s.present (lineRequest op a b)) =
      .next ((s.present (lineRequest op a b)).withRsp (some (answer s.cfg (lineInstr op a b)))) := by
  rw [step_eq_answer, fetch_present, decode_toWord, decodeRequest_lineRequest]; rfl

/-- All that a well-formed line with readable sources does. -/
theorem issue_eq_take {l : Line} {e : Env} {a b : BitVec 64} (s : State) (hl : l.wf = true)
    (ha : e.read l.srcA = .ok a) (hb : e.readB l.srcB = .ok b) :
    issue l e s =
      .next (take e l.dst (lineRequest l.op a b) (answer s.cfg (lineInstr l.op a b)),
        (s.present (lineRequest l.op a b)).withRsp (some (answer s.cfg (lineInstr l.op a b)))) := by
  simp [issue, hl, ha, hb, step_present_lineRequest]

/-- A result that fits its width is not cut. -/
theorem cutTo_of_lt {width : Nat} {y : BitVec 64} (h : y.toNat < 2 ^ width) : cutTo width y = y := by
  rw [cutTo, Nat.mod_eq_of_lt h, BitVec.ofNat_toNat, BitVec.setWidth_eq]

/-- The target holds the whole result: it has no bit above the operation's width (spec/10_state.md R18). -/
theorem lookup_take_answer_self (e : Env) (dst : Nat) (cfg : Config) (op : BitVec 3) (a b : BitVec 64) :
    (take e dst (lineRequest op a b) (answer cfg (lineInstr op a b))).vars.lookup dst =
      some (answer cfg (lineInstr op a b)).y := by
  have hfit : (answer cfg (lineInstr op a b)).y.toNat < 2 ^ (decodeRequest (lineRequest op a b)).resultWidth := by
    rw [decodeRequest_lineRequest]
    exact answer_y_lt cfg _
  exact (e.lookup_write_self dst _).trans (congrArg some (cutTo_of_lt hfit))

theorem lookup_take_other (e : Env) {n dst : Nat} (r : Request) (p : Response) (h : n ≠ dst) :
    (take e dst r p).vars.lookup n = e.vars.lookup n :=
  e.lookup_write_other _ h

end Sys2Proof.Caller
end

section
/-! The opcode map, the words that decode, the step on a presented word, and a line of a listing. -/

namespace Sys2Proof.Proofs

open Sys2Proof.Machine

/-- Settles O49: the line's one outcome is `issue_eq_take`, whose response is the answer of its operation. -/
theorem lineUpdatesItsTargetAndTheAccumulator : Obligations.LineUpdatesItsTargetAndTheAccumulator := by
  intro l e s a b hl ha hb
  exact ⟨_, _, answer s.cfg (Caller.lineInstr l.op a b), Caller.issue_eq_take s hl ha hb, rfl, exec_eq_answer _ _, rfl,
    Caller.lookup_take_answer_self e l.dst s.cfg l.op a b, fun _ hn => Caller.lookup_take_other e _ _ hn⟩

/-- Settles O2: the decoder's arm for each opcode, after the ports are read back from the word. -/
theorem opcodeSelectsTheOperation : Obligations.OpcodeSelectsTheOperation := fun b a =>
  ⟨decode_append 0#3 b a, decode_append 1#3 b a, decode_append 2#3 b a, decode_append 3#3 b a, decode_append 4#3 b a,
    decode_append 5#3 b a, decode_append 6#3 b a, decode_append 7#3 b a⟩

/-- Settles O4: the decoder asks for nothing but the bound. -/
theorem everyRequestWordDecodes : Obligations.EveryRequestWordDecodes := fun _ =>
  ⟨fun h => ⟨_, decodeWord_of_lt h⟩, decodeWord_of_le⟩

/-- Settles O7: the instruction fetched is the one the request on the ports decodes to. -/
theorem stepRunsTheDecodedInstruction : Obligations.StepRunsTheDecodedInstruction := by
  intro s r i hreq hdecode _
  exact step_of_fetch (by rw [fetch_of_req hreq, hdecode])

/-- Settles O9: the low `nbits` bits that the table decoder reads are the ones presented, so the next step fetches what
they decode to. -/
theorem presentedWordIsRunNext : Obligations.PresentedWordIsRunNext := by
  intro s nbits w i _ htable
  have hdecode := decode_of_decodeWord (decodeTableWord_eq_some_iff.1 htable)
  exact ⟨step_of_fetch (by rw [fetch_withFetchWord, hdecode]), rfl, rfl⟩

end Sys2Proof.Proofs
end

section
/-! SUPPORT. Rounding to the nearest of ascending values, to the even one of two as near, told by the midpoints
(spec/40_formats.md R66, spec/41_narrowing.md R94). -/

namespace Sys2Proof

/-- The midpoints of ascending values `V 0`, …, `V N` tell `g` as the place of the value `x` is rounded to: `g` lies above
`n` exactly when `x` lies above the midpoint of `V n` and `V (n + 1)`, or on it with `n` odd. -/
def RoundsTo {K : Type*} [CommRing K] [LinearOrder K] (V : ℕ → K) (N : ℕ) (x : K) (g : ℕ) : Prop :=
  ∀ n < N, n < g ↔ V n + V (n + 1) < 2 * x ∨ (V n + V (n + 1) = 2 * x ∧ n % 2 = 1)

section
variable {K : Type*} [CommRing K] [LinearOrder K] [IsStrictOrderedRing K] {V : ℕ → K} {N g m : ℕ} {x y : K}

/-- Rounding keeps the order. -/
theorem RoundsTo.le_of_le {h : ℕ} (hg : RoundsTo V N x g) (hh : RoundsTo V N y h) (hgN : g ≤ N) (hxy : x ≤ y) :
    g ≤ h := by
  by_contra hlt
  have hmid := (hg h (by omega)).1 (by omega)
  refine lt_irrefl h ((hh h (by omega)).2 ?_)
  rcases hmid with hx | ⟨hx, hodd⟩
  · exact .inl (by linarith)
  · rcases hxy.eq_or_lt with rfl | hlt
    · exact .inr ⟨hx, hodd⟩
    · exact .inl (by linarith)

/-- The values below the rounded one have their midpoint with it below `x`, or at `x` with an even place. -/
theorem RoundsTo.add_lt_or_even (hr : RoundsTo V N x g) (hV : StrictMonoOn V (Set.Iic N)) (hg : g ≤ N) (hm : m < g) :
    V m + V g < 2 * x ∨ (V m + V g = 2 * x ∧ g % 2 = 0) := by
  obtain ⟨n, rfl⟩ : ∃ n, g = n + 1 := ⟨g - 1, by omega⟩
  have hle : V m ≤ V n := hV.monotoneOn (Set.mem_Iic.2 (by omega)) (Set.mem_Iic.2 (by omega)) (by omega)
  rcases (hr n (by omega)).1 (by omega) with h | ⟨h, hodd⟩
  · exact .inl (by linarith)
  · rcases hle.eq_or_lt with heq | hlt
    · exact .inr ⟨by rw [heq, h], by omega⟩
    · exact .inl (by linarith)

/-- The values above the rounded one have their midpoint with it above `x`, or at `x` with an even place. -/
theorem RoundsTo.lt_add_or_even (hr : RoundsTo V N x g) (hV : StrictMonoOn V (Set.Iic N)) (hm : m ≤ N) (hgm : g < m) :
    2 * x < V m + V g ∨ (V m + V g = 2 * x ∧ g % 2 = 0) := by
  have hle : V (g + 1) ≤ V m := hV.monotoneOn (Set.mem_Iic.2 (by omega)) (Set.mem_Iic.2 (by omega)) (by omega)
  have hmid : ¬ (V g + V (g + 1) < 2 * x ∨ (V g + V (g + 1) = 2 * x ∧ g % 2 = 1)) := fun h =>
    lt_irrefl g ((hr g (by omega)).2 h)
  obtain ⟨hge, hodd⟩ := not_or.1 hmid
  rcases (not_lt.1 hge).eq_or_lt with heq | hlt
  · rcases hle.eq_or_lt with heq' | hlt'
    · exact .inr ⟨by rw [← heq', heq, add_comm], by have : ¬ g % 2 = 1 := fun h => hodd ⟨heq.symm, h⟩; omega⟩
    · exact .inl (by linarith)
  · exact .inl (by linarith)

/-- The rounded value is the nearest, and its place is even where another is as near. -/
theorem RoundsTo.abs_sub_lt_or_even (hr : RoundsTo V N x g) (hV : StrictMonoOn V (Set.Iic N)) (hg : g ≤ N) (hm : m ≤ N)
    (hne : m ≠ g) : |V g - x| < |V m - x| ∨ (|V g - x| = |V m - x| ∧ g % 2 = 0) := by
  rcases hne.lt_or_gt with hlt | hlt
  · have hVlt : V m < V g := hV hm hg hlt
    rcases hr.add_lt_or_even hV hg hlt with h | ⟨h, heven⟩
    · rw [abs_of_nonpos (by linarith : V m - x ≤ 0)]
      exact .inl (abs_lt.2 ⟨by linarith, by linarith⟩)
    · rw [abs_of_nonpos (by linarith : V m - x ≤ 0), abs_of_nonneg (by linarith : 0 ≤ V g - x)]
      exact .inr ⟨by linarith, heven⟩
  · have hVlt : V g < V m := hV hg hm hlt
    rcases hr.lt_add_or_even hV hm hlt with h | ⟨h, heven⟩
    · rw [abs_of_nonneg (by linarith : 0 ≤ V m - x)]
      exact .inl (abs_lt.2 ⟨by linarith, by linarith⟩)
    · rw [abs_of_nonneg (by linarith : 0 ≤ V m - x), abs_of_nonpos (by linarith : V g - x ≤ 0)]
      exact .inr ⟨by linarith, heven⟩

/-- The same among the values and their opposites: of a number that is not negative no negative one is nearer than 0. -/
theorem RoundsTo.abs_sub_lt_or_even_of_abs (hr : RoundsTo V N x g) (hV : StrictMonoOn V (Set.Iic N)) (h0 : V 0 = 0)
    (hg : g ≤ N) (hx : 0 ≤ x) (hm : m ≤ N) (hy : |y| = V m) (hne : y ≠ V g) :
    |V g - x| < |y - x| ∨ (|V g - x| = |y - x| ∧ g % 2 = 0) := by
  rcases le_or_gt 0 y with hpos | hneg
  · rw [abs_of_nonneg hpos] at hy
    rw [hy]
    exact hr.abs_sub_lt_or_even hV hg hm fun h => hne (by rw [hy, h])
  · have hzero : |V g - x| ≤ |V 0 - x| := by
      rcases eq_or_ne 0 g with rfl | h
      · exact le_rfl
      · rcases hr.abs_sub_lt_or_even hV hg (Nat.zero_le N) h with h | ⟨h, -⟩
        exacts [h.le, h.le]
    rw [h0, zero_sub, abs_neg, abs_of_nonneg hx] at hzero
    rw [abs_of_nonpos (by linarith : y - x ≤ 0)]
    exact .inl (by linarith)

end

namespace Machine

/-! ## The rounded quotient -/

/-- `rne` rounds among the multiples of `2^sh`. -/
theorem rne_roundsTo (v sh N : ℕ) : RoundsTo (fun n => (n : ℤ) * 2 ^ sh) N (v : ℤ) (rne v sh).q := by
  intro n _
  have hmid : (n : ℤ) * 2 ^ sh + ((n + 1 : ℕ) : ℤ) * 2 ^ sh = (((2 * n + 1) * 2 ^ sh : ℕ) : ℤ) := by push_cast; ring
  rw [lt_rne_q_iff, hmid]
  norm_cast

theorem strictMono_mul_two_pow (sh : ℕ) : StrictMono fun n : ℕ => (n : ℤ) * 2 ^ sh := fun m n h => by
  have : (m : ℤ) < n := by exact_mod_cast h
  exact mul_lt_mul_of_pos_right this (by positivity)

/-- `inexact` is false exactly for a multiple of `2^sh`, which is then the quotient's. -/
theorem rne_inexact_eq_false_iff {v sh : ℕ} (h : 1 ≤ sh) : (rne v sh).inexact = false ↔ v = (rne v sh).q * 2 ^ sh := by
  have hv : 2 ^ sh * (v / 2 ^ sh) + v % 2 ^ sh = v := Nat.div_add_mod ..
  rw [rne_eq v sh h, decide_eq_false_iff_not, not_not]
  constructor
  · intro h0
    have hhalf : ¬ (2 ^ (sh - 1) < 0 ∨ (0 = 2 ^ (sh - 1) ∧ v / 2 ^ sh % 2 = 1)) := by
      have : 0 < 2 ^ (sh - 1) := by positivity
      omega
    simp only [h0, hhalf, if_false]
    rw [mul_comm]; omega
  · intro hmul
    rw [hmul, Nat.mul_mod_left]

/-- An even multiple of `2^sh` passes through `rne`. -/
theorem rne_add_mul_two_pow {v sh : ℕ} (h : 1 ≤ sh) (a : ℕ) :
    rne (2 ^ sh * (2 * a) + v) sh = { q := 2 * a + (rne v sh).q, inexact := (rne v sh).inexact } := by
  have hpos : 0 < 2 ^ sh := by positivity
  simp only [rne_eq _ sh h, Nat.mul_add_div hpos, Nat.add_mod, Nat.mul_mod_right, zero_add, Nat.mod_mod]
  split <;> simp [add_assoc]

/-- A number below half of `2^sh` rounds to 0, inexactly unless it is 0. -/
theorem rne_of_lt_half {v sh : ℕ} (h : 2 * v < 2 ^ sh) : rne v sh = { q := 0, inexact := decide (v ≠ 0) } := by
  rcases sh with - | k
  · obtain rfl : v = 0 := by omega
    rfl
  · rw [pow_succ] at h
    have hlt : v < 2 ^ (k + 1) := by omega
    rw [rne_eq v (k + 1) (by omega), Nat.div_eq_of_lt hlt, Nat.mod_eq_of_lt hlt, if_neg (by simp; omega)]

/-- The quotient is kept or goes up by one (R67). -/
theorem rne_q_eq_or (v sh : ℕ) (h : 1 ≤ sh) : (rne v sh).q = v >>> sh ∨ (rne v sh).q = (v >>> sh) + 1 := by
  rw [rne_eq v sh h, Nat.shiftRight_eq_div_pow]
  dsimp only
  split
  · exact .inr rfl
  · exact .inl rfl

end Machine
end Sys2Proof
end

section
/-! The rounding primitive. -/

namespace Sys2Proof.Proofs

open Sys2Proof.Machine

/-- Settles O21: `rne` is told by the midpoints of the multiples of `2^sh` (`rne_roundsTo`), and such a rounding is to the
nearest, to even on a tie, and monotonic; a negative integer is no nearer than 0. -/
theorem rneRoundsToNearestEven : Obligations.RneRoundsToNearestEven := by
  refine ⟨fun v sh hsh => ?_, fun v w sh _ hvw => ?_⟩
  · have hnear : ∀ n : ℤ, n ≠ (rne v sh).q → |((rne v sh).q : ℤ) * 2 ^ sh - v| < |n * 2 ^ sh - v| ∨
        (|((rne v sh).q : ℤ) * 2 ^ sh - v| = |n * 2 ^ sh - v| ∧ (rne v sh).q % 2 = 0) := fun n hn =>
      (rne_roundsTo v sh (max (rne v sh).q n.natAbs)).abs_sub_lt_or_even_of_abs
        ((strictMono_mul_two_pow sh).strictMonoOn _) (by simp) (le_max_left _ _) (by positivity) (le_max_right _ _)
        (by simp [abs_mul]) fun h => hn (mul_right_cancel₀ (by positivity) h)
    refine ⟨fun n => ?_, fun n hn heq => ?_, rne_inexact_eq_false_iff hsh, rne_q_eq_or v sh hsh⟩
    · rcases eq_or_ne n (rne v sh).q with rfl | hn
      · exact le_rfl
      · rcases hnear n hn with h | ⟨h, -⟩
        exacts [h.le, h.le]
    · rcases hnear n hn with h | ⟨-, h⟩
      exacts [absurd heq h.ne, h]
  · exact (rne_roundsTo v sh (rne v sh).q).le_of_le (rne_roundsTo w sh _) le_rfl (by exact_mod_cast hvw)

end Sys2Proof.Proofs
end

section
/-! SUPPORT. Splitting and joining a pattern, its sign bit, and its class by its fields (spec/40_formats.md R61, R62). -/

namespace Sys2Proof

theorem Format.width_sub_one (f : Format) : f.width - 1 = f.manWidth + f.expWidth := by
  rw [f.width_eq, Nat.add_sub_cancel]

/-- A pattern of the width is put together again from its fields. -/
theorem Format.join_split (f : Format) {p : Nat} (h : p < 2 ^ f.width) : f.join (f.split p) = p := by
  have hsign : (f.split p).sign = p / 2 ^ (f.width - 1) := by
    have hw : f.width = f.width - 1 + 1 := by rw [f.width_sub_one, f.width_eq]
    rw [hw, pow_succ] at h
    have hlt : p / 2 ^ (f.width - 1) < 2 := Nat.div_lt_of_lt_mul h
    rw [Format.split, Nat.shiftRight_eq_div_pow]
    exact Nat.mod_eq_of_lt hlt
  rw [f.join_eq_add _ (f.split_exp_lt p) (f.split_man_lt p), ← f.magnitude_eq, hsign, Format.magnitude, Nat.mul_comm]
  exact Nat.div_add_mod ..

/-- Fields in their ranges are read back from the pattern they make up. -/
theorem Format.split_join (f : Format) {x : Fields} (hs : x.sign < 2) (he : x.exp < 2 ^ f.expWidth)
    (hm : x.man < 2 ^ f.manWidth) : f.split (f.join x) = x := by
  have hlow : x.exp * 2 ^ f.manWidth + x.man < 2 ^ (f.manWidth + f.expWidth) := by
    rw [pow_add]; nlinarith
  have hjoin : f.join x = 2 ^ f.manWidth * (2 ^ f.expWidth * x.sign + x.exp) + x.man := by
    rw [f.join_eq_add x he hm, f.width_sub_one, pow_add]; ring
  have hsign : f.join x / 2 ^ (f.width - 1) = x.sign := by
    rw [f.join_eq_add x he hm, f.width_sub_one, Nat.mul_comm, Nat.mul_add_div (by positivity), Nat.div_eq_of_lt hlow,
      add_zero]
  have hexp : f.join x / 2 ^ f.manWidth = 2 ^ f.expWidth * x.sign + x.exp := by
    rw [hjoin, Nat.mul_add_div (by positivity), Nat.div_eq_of_lt hm, add_zero]
  have hman : f.join x % 2 ^ f.manWidth = x.man := by
    rw [hjoin, Nat.mul_add_mod, Nat.mod_eq_of_lt hm]
  simp only [Format.split, Nat.shiftRight_eq_div_pow, hsign, hexp, hman, Nat.mul_add_mod, Nat.mod_eq_of_lt hs,
    Nat.mod_eq_of_lt he]

/-- Flipping the top bit flips the sign and leaves the two other fields. -/
theorem Format.split_xor_sign (f : Format) (p : Nat) :
    f.split (p ^^^ 2 ^ (f.width - 1)) = { f.split p with sign := 1 - (f.split p).sign } := by
  have hman : 2 ^ (f.manWidth + f.expWidth) % 2 ^ f.manWidth = 0 := by rw [pow_add, Nat.mul_mod_right]
  have hexp : 2 ^ (f.manWidth + f.expWidth) / 2 ^ f.manWidth % 2 ^ f.expWidth = 0 := by
    rw [pow_add, Nat.mul_div_cancel_left _ (by positivity), Nat.mod_self]
  have hsign : ∀ a : Nat, (a ^^^ 1) % 2 = 1 - a % 2 := fun a => by
    rcases Nat.mod_two_eq_zero_or_one a with h | h <;>
      simp [Nat.xor_mod_two_eq, h, Nat.add_mod]
  rw [f.width_sub_one, Format.split, Format.split, f.width_sub_one, Nat.shiftRight_xor_distrib,
    Nat.shiftRight_xor_distrib, Nat.xor_mod_two_pow, Nat.xor_mod_two_pow, Nat.shiftRight_eq_div_pow (2 ^ _),
    Nat.shiftRight_eq_div_pow (2 ^ _), hman, hexp, Nat.div_self (by positivity), hsign, Nat.xor_zero, Nat.xor_zero]

/-! ## Classes -/

theorem Format.emax_pos (f : Format) : 0 < f.emax := by cases f <;> decide

theorem Format.classOf_eq_zero_iff (f : Format) (x : Fields) : f.classOf x = .zero ↔ x.exp = 0 ∧ x.man = 0 := by
  unfold Format.classOf
  split_ifs <;> simp [*, f.emax_pos.ne']

theorem Format.classOf_eq_subnormal_iff (f : Format) (x : Fields) :
    f.classOf x = .subnormal ↔ x.exp = 0 ∧ x.man ≠ 0 := by
  unfold Format.classOf
  split_ifs <;> simp [*, f.emax_pos.ne']

theorem Format.classOf_eq_infinity_iff (f : Format) (x : Fields) :
    f.classOf x = .infinity ↔ x.exp = f.emax ∧ x.man = 0 := by
  unfold Format.classOf
  split_ifs <;> simp [*, f.emax_pos.ne]

theorem Format.classOf_eq_nan_iff (f : Format) (x : Fields) : f.classOf x = .nan ↔ x.exp = f.emax ∧ x.man ≠ 0 := by
  unfold Format.classOf
  split_ifs <;> simp [*, f.emax_pos.ne]

theorem Format.classOf_eq_normal_iff (f : Format) (x : Fields) :
    f.classOf x = .normal ↔ x.exp ≠ 0 ∧ x.exp ≠ f.emax := by
  unfold Format.classOf
  split_ifs <;> simp [*]

/-- A pattern stands for a number unless it is an infinity or a NaN. -/
theorem Format.isFinite_iff_classify (f : Format) (p : Nat) :
    f.isFinite p = true ↔ f.classify p ≠ .infinity ∧ f.classify p ≠ .nan := by
  rw [f.isFinite_iff, Format.classify, Ne, Ne, Ne, f.classOf_eq_infinity_iff, f.classOf_eq_nan_iff]
  tauto

/-- Fields of each class, under either sign. -/
def Format.classExample (f : Format) (sign : Nat) : FloatClass → Fields
  | .zero => { sign := sign, exp := 0, man := 0 }
  | .subnormal => { sign := sign, exp := 0, man := 1 }
  | .normal => { sign := sign, exp := 1, man := 0 }
  | .infinity => { sign := sign, exp := f.emax, man := 0 }
  | .nan => { sign := sign, exp := f.emax, man := 1 }

theorem Format.classOf_classExample (f : Format) (sign : Nat) (c : FloatClass) :
    f.classOf (f.classExample sign c) = c := by
  cases f <;> cases c <;> rfl

theorem Format.split_join_classExample (f : Format) {sign : Nat} (hs : sign < 2) (c : FloatClass) :
    f.split (f.join (f.classExample sign c)) = f.classExample sign c ∧ f.join (f.classExample sign c) < 2 ^ f.width := by
  have hsign : (f.classExample sign c).sign < 2 := by cases c <;> exact hs
  have hexp : (f.classExample sign c).exp < 2 ^ f.expWidth := by cases f <;> cases c <;> simp [Format.classExample]
  have hman : (f.classExample sign c).man < 2 ^ f.manWidth := by cases f <;> cases c <;> simp [Format.classExample]
  exact ⟨f.split_join hsign hexp hman, f.join_lt hsign hexp hman⟩

/-- Every class of every format has a pattern of either sign. -/
theorem Format.exists_classify (f : Format) (c : FloatClass) {sign : Nat} (hs : sign < 2) :
    ∃ p < 2 ^ f.width, f.classify p = c ∧ (f.split p).sign = sign := by
  obtain ⟨hsplit, hlt⟩ := f.split_join_classExample hs c
  refine ⟨_, hlt, ?_, ?_⟩
  · rw [Format.classify, hsplit, f.classOf_classExample]
  · rw [hsplit]; cases c <;> rfl

end Sys2Proof
end

section
/-! The formats: constants, fields and classes. -/

namespace Sys2Proof.Proofs

/-- Settles O19: a pattern is the sum of its fields, each at its place. -/
theorem fieldsMakeUpThePattern : Obligations.FieldsMakeUpThePattern :=
  ⟨fun f _ h => f.join_split h, fun f _ hs he hm => ⟨f.split_join hs he hm, f.join_lt hs he hm⟩⟩

/-- Settles O20: each class has its condition on the fields, the sign is no part of it, and each class has an example
under either sign. -/
theorem everyPatternIsInOneClass : Obligations.EveryPatternIsInOneClass := by
  refine ⟨fun f p _ => ⟨f.classOf_eq_zero_iff _, f.classOf_eq_subnormal_iff _, ?_, f.classOf_eq_infinity_iff _,
    f.classOf_eq_nan_iff _, ?_⟩, fun f c => ?_⟩
  · have hexp := f.split_exp_lt p
    have hemax : f.emax = 2 ^ f.expWidth - 1 := rfl
    rw [Format.classify, f.classOf_eq_normal_iff]
    omega
  · rw [Format.classify, f.split_xor_sign]
    rfl
  · obtain ⟨p, hp, hpc, hps⟩ := f.exists_classify c (sign := 0) (by decide)
    obtain ⟨q, hq, hqc, hqs⟩ := f.exists_classify c (sign := 1) (by decide)
    exact ⟨p, q, hp, hq, hpc, hqc, hps, hqs⟩

/-- Settles O18: the table's row of each format. -/
theorem descriptorConstants : Obligations.DescriptorConstants := fun f => by cases f <;> rfl

end Sys2Proof.Proofs
end

section
/-! SUPPORT. Values by sign and magnitude, and the half values in ascending order (spec/40_formats.md R63, R64). -/

namespace Sys2Proof

/-- The mantissa with its implicit leading bit, which a subnormal and a zero have not (spec/40_formats.md R63). -/
def Format.significand (f : Format) (x : Fields) : Nat := if x.exp = 0 then x.man else 2 ^ f.manWidth + x.man

theorem Format.significand_lt (f : Format) (p : Nat) : f.significand (f.split p) < 2 ^ (f.manWidth + 1) := by
  have hm := f.split_man_lt p
  rw [Format.significand, pow_succ]
  split <;> omega

/-- A magnitude is its significand in units of the last place; a zero exponent field has the units of 1. -/
theorem Format.abs_val_eq_significand (f : Format) (p : Nat) :
    |f.val p| = f.significand (f.split p) * (2 : ℚ) ^ (((max 1 (f.split p).exp : ℕ) : ℤ) - f.bias - f.manWidth) := by
  rw [zpow_sub₀ two_ne_zero, zpow_natCast, Format.significand]
  rcases eq_or_ne (f.split p).exp 0 with h | h
  · rw [Format.abs_val_of_exp_zero h, h, if_pos rfl]
    simp only [max_eq_left, Nat.zero_le, Nat.cast_one]
    ring
  · rw [Format.abs_val_of_exp_ne_zero h, if_neg h, max_eq_right (Nat.one_le_iff_ne_zero.2 h)]
    push_cast
    field_simp

/-- A value is its magnitude under its sign. -/
theorem Format.val_eq_sign_mul_abs (f : Format) (p : Nat) : f.val p = (-1) ^ (f.split p).sign * |f.val p| := by
  rcases eq_or_ne (f.split p).exp 0 with h | h
  · rw [Format.abs_val_of_exp_zero h]
    simp [Format.val, h]
  · rw [Format.abs_val_of_exp_ne_zero h]
    simp [Format.val, h]

/-- The magnitude of a pattern is the pattern under the sign 0. -/
theorem Format.split_magnitude (f : Format) (p : Nat) : f.split (f.magnitude p) = { f.split p with sign := 0 } := by
  have hlt : p % 2 ^ (f.manWidth + f.expWidth) < 2 ^ (f.manWidth + f.expWidth) := Nat.mod_lt _ (by positivity)
  simp only [Format.split, Format.magnitude, f.width_sub_one, Nat.shiftRight_eq_div_pow, Nat.div_eq_of_lt hlt]
  rw [pow_add, Nat.mod_mul_right_div_self, Nat.mod_mod, Nat.mod_mul_right_mod]

/-- A magnitude's own value is the value's magnitude. -/
theorem Format.val_magnitude (f : Format) (p : Nat) : f.val (f.magnitude p) = |f.val p| := by
  rw [f.val_eq_sign_mul_abs, f.abs_val_eq_significand, f.abs_val_eq_significand, f.split_magnitude]
  simp [Format.significand]

theorem Format.val_eq_sign_mul_val_magnitude (f : Format) (p : Nat) :
    f.val p = (-1) ^ (f.split p).sign * f.val (f.magnitude p) := by
  rw [f.val_magnitude, ← f.val_eq_sign_mul_abs]

/-! ## The half values -/

/-- The fields of a half under the sign 0. -/
theorem split_binary16 {n : Nat} (h : n < 2 ^ 15) :
    Format.binary16.split n = { sign := 0, exp := n / 1024, man := n % 1024 } := by
  simp [Format.split, Nat.shiftRight_eq_div_pow]
  omega

/-- In the block of 2048 halves from `1024 * e` on the values are the multiples of one unit, from the first normal one on,
and in the first block from 0 on. -/
theorem val_binary16_block {e m : Nat} (he : e ≤ 29) (hm : m ≤ 2048) (h : e = 0 ∨ 1024 ≤ m) :
    Format.binary16.val (1024 * e + m) = m * (2 : ℚ) ^ ((e : ℤ) - 24) := by
  rw [Format.val_eq_sign_mul_abs, Format.abs_val_eq_significand, split_binary16 (by omega), pow_zero, one_mul,
    Format.significand, Format.bias_binary16, Format.manWidth_binary16]
  dsimp only
  rcases hm.lt_or_eq with hlt | rfl
  · have hsig : (if (1024 * e + m) / 1024 = 0 then (1024 * e + m) % 1024 else 2 ^ 10 + (1024 * e + m) % 1024) =
        m := by
      split <;> omega
    have hexp : ((max 1 ((1024 * e + m) / 1024) : ℕ) : ℤ) - (15 : ℕ) - (10 : ℕ) = e - 24 := by omega
    rw [hsig, hexp]
  · have hexp : ((max 1 ((1024 * e + 2048) / 1024) : ℕ) : ℤ) - (15 : ℕ) - (10 : ℕ) = e - 24 + 1 := by omega
    rw [if_neg (by omega), hexp, zpow_add_one₀ two_ne_zero, show (1024 * e + 2048) % 1024 = 0 by omega]
    push_cast
    ring

theorem val_binary16_zero : Format.binary16.val 0 = 0 := by
  simpa using val_binary16_block (e := 0) (m := 0) (by decide) (by decide) (.inl rfl)

/-- Every half below the infinity is in a block with its successor. -/
theorem exists_binary16_block {n : Nat} (h : n < 0x7C00) :
    ∃ e m, n = 1024 * e + m ∧ e ≤ 29 ∧ m < 2048 ∧ (e = 0 ∨ 1024 ≤ m) :=
  ⟨n / 1024 - 1, n - 1024 * (n / 1024 - 1), by omega⟩

/-- From zero to the infinity the half values ascend with the patterns (R64). -/
theorem val_binary16_strictMonoOn : StrictMonoOn Format.binary16.val (Set.Iic 0x7C00) := by
  refine strictMonoOn_Iic_of_lt_succ fun n hn => ?_
  obtain ⟨e, m, rfl, he, hm, hem⟩ := exists_binary16_block hn
  rw [Nat.succ_eq_succ, Nat.succ_eq_add_one, add_assoc, val_binary16_block he hm.le hem,
    val_binary16_block he hm (by omega)]
  exact mul_lt_mul_of_pos_right (by exact_mod_cast Nat.lt_succ_self m) (by positivity)

theorem val_binary16_lt {m n : Nat} (h : m < n) (hn : n ≤ 0x7C00) : Format.binary16.val m < Format.binary16.val n :=
  val_binary16_strictMonoOn (Set.mem_Iic.2 (h.le.trans hn)) (Set.mem_Iic.2 hn) h

theorem val_binary16_le {m n : Nat} (h : m ≤ n) (hn : n ≤ 0x7C00) : Format.binary16.val m ≤ Format.binary16.val n :=
  val_binary16_strictMonoOn.monotoneOn (Set.mem_Iic.2 (h.trans hn)) (Set.mem_Iic.2 hn) h

end Sys2Proof
end

section
/-! SUPPORT. The fields, the class and the value of a widened half (spec/42_widening.md R113 to R117). -/

namespace Sys2Proof

/-- The bias of a wide format leaves room for the half exponents below, its largest exponent field for those above. -/
theorem Format.wide_constants {f : Format} (hf : f ≠ .binary16) : 26 < f.bias ∧ f.bias + 17 < f.emax ∧ 1 ≤ f.drop := by
  cases f with
  | binary16 => exact absurd rfl hf
  | binary32 => decide
  | binary64 => decide

namespace Machine

/-- The ten mantissa bits a widening left-aligns: a subnormal's after its highest set bit, any other's as they stand. -/
def widenMan (x : Fields) : Nat :=
  if Format.binary16.classOf x = .subnormal then (x.man <<< (10 - msb x.man)) &&& 0x3FF else x.man

/-- The exponent field of a widened half. -/
def widenExp (f : Format) (x : Fields) : Nat :=
  match Format.binary16.classOf x with
  | .zero => 0
  | .subnormal => f.subBase + msb x.man
  | .normal => x.exp + f.rebias
  | .infinity => f.emax
  | .nan => f.emax

/-- All five classes of R113 to R117 as one pattern: the sign, the exponent field, and ten mantissa bits left-aligned. -/
theorem widen_eq_join (f : Format) (h : Nat) :
    widen f h = f.join { sign := (Format.binary16.split h).sign, exp := widenExp f (Format.binary16.split h),
                         man := widenMan (Format.binary16.split h) <<< f.drop } := by
  cases c : Format.binary16.classOf (Format.binary16.split h) with
  | zero =>
    have hman := ((Format.classOf_eq_zero_iff _ _).1 c).2
    simp [widen_zero c, widenZero, widenExp, widenMan, c, hman]
  | subnormal => simp [widen_subnormal c, widenSubnormal, widenExp, widenMan, c]
  | normal => simp [widen_normal c, widenNormal, widenExp, widenMan, c]
  | infinity =>
    have hman := ((Format.classOf_eq_infinity_iff _ _).1 c).2
    simp [widen_inf c, widenInf, widenExp, widenMan, c, hman]
  | nan => simp [widen_nan c, widenNan, widenExp, widenMan, c]

theorem widenMan_lt (h : Nat) : widenMan (Format.binary16.split h) < 2 ^ 10 := by
  rw [widenMan]
  split
  · exact Nat.and_lt_two_pow _ (by decide)
  · exact Format.binary16.split_man_lt h

theorem msb_man_lt (h : Nat) : msb (Format.binary16.split h).man < 10 := by
  rcases eq_or_ne (Format.binary16.split h).man 0 with h0 | h0
  · rw [h0]; decide
  · exact (Nat.log2_lt h0).2 (Format.binary16.split_man_lt h)

/-- A widened number's exponent field is no special one (R114, R115). -/
theorem widenExp_of_number {f : Format} (hf : f ≠ .binary16) {h : Nat}
    (c : Format.binary16.classOf (Format.binary16.split h) = .subnormal ∨
      Format.binary16.classOf (Format.binary16.split h) = .normal) :
    0 < widenExp f (Format.binary16.split h) ∧ widenExp f (Format.binary16.split h) < f.emax := by
  obtain ⟨hbias, hemax, -⟩ := Format.wide_constants hf
  rcases c with c | c
  · have hmsb := msb_man_lt h
    have hbase : f.subBase = f.bias - 24 := rfl
    simp only [widenExp, c]
    omega
  · have hexp : (Format.binary16.split h).exp < 32 := Format.binary16.split_exp_lt h
    obtain ⟨hzero, hmax⟩ := (Format.classOf_eq_normal_iff _ _).1 c
    rw [Format.emax_binary16] at hmax
    have hrebias : f.rebias = f.bias - 15 := rfl
    simp only [widenExp, c]
    omega

theorem widenExp_le {f : Format} (hf : f ≠ .binary16) (h : Nat) : widenExp f (Format.binary16.split h) ≤ f.emax := by
  cases c : Format.binary16.classOf (Format.binary16.split h) with
  | zero => simp [widenExp, c]
  | subnormal => exact (widenExp_of_number hf (.inl c)).2.le
  | normal => exact (widenExp_of_number hf (.inr c)).2.le
  | infinity => simp [widenExp, c]
  | nan => simp [widenExp, c]

/-- The fields of a widened half. -/
theorem split_widen {f : Format} (hf : f ≠ .binary16) (h : Nat) :
    f.split (widen f h) = { sign := (Format.binary16.split h).sign, exp := widenExp f (Format.binary16.split h),
                            man := widenMan (Format.binary16.split h) <<< f.drop } := by
  have hman : widenMan (Format.binary16.split h) <<< f.drop < 2 ^ f.manWidth := by
    rw [Nat.shiftLeft_eq, ← f.drop_add_ten, pow_add, Nat.mul_comm]
    exact Nat.mul_lt_mul_of_pos_left (widenMan_lt h) (by positivity)
  rw [widen_eq_join]
  exact f.split_join (Format.binary16.split_sign_lt h) ((widenExp_le hf h).trans_lt f.emax_lt) hman

/-- A subnormal half becomes normal, every other class stays (R113 to R117). -/
def widenedClass : FloatClass → FloatClass
  | .subnormal => .normal
  | c => c

/-- The class of a widened half. -/
theorem classify_widen {f : Format} (hf : f ≠ .binary16) (h : Nat) :
    f.classify (widen f h) = widenedClass (Format.binary16.classify h) := by
  rw [Format.classify, split_widen hf, Format.classify]
  cases c : Format.binary16.classOf (Format.binary16.split h) with
  | zero =>
    obtain ⟨-, hman⟩ := (Format.classOf_eq_zero_iff _ _).1 c
    exact (f.classOf_eq_zero_iff _).2 ⟨by simp [widenExp, c], by simp [widenMan, c, hman]⟩
  | subnormal =>
    obtain ⟨hpos, hlt⟩ := widenExp_of_number hf (.inl c)
    exact (f.classOf_eq_normal_iff _).2 ⟨hpos.ne', hlt.ne⟩
  | normal =>
    obtain ⟨hpos, hlt⟩ := widenExp_of_number hf (.inr c)
    exact (f.classOf_eq_normal_iff _).2 ⟨hpos.ne', hlt.ne⟩
  | infinity =>
    obtain ⟨-, hman⟩ := (Format.classOf_eq_infinity_iff _ _).1 c
    exact (f.classOf_eq_infinity_iff _).2 ⟨by simp [widenExp, c], by simp [widenMan, c, hman]⟩
  | nan =>
    obtain ⟨-, hman⟩ := (Format.classOf_eq_nan_iff _ _).1 c
    exact (f.classOf_eq_nan_iff _).2 ⟨by simp [widenExp, c], by simp [widenMan, c, hman]⟩

/-- Shifted to the tenth place, the highest set bit of a subnormal's mantissa is the implicit bit (R114). -/
theorem two_pow_add_widenMan {x : Fields} (c : Format.binary16.classOf x = .subnormal) (hlt : msb x.man < 10) :
    2 ^ 10 + widenMan x = x.man * 2 ^ (10 - msb x.man) := by
  obtain ⟨-, hman⟩ := (Format.classOf_eq_subnormal_iff _ _).1 c
  obtain ⟨hle, hgt⟩ := msb_bounds hman
  have hlow : 2 ^ 10 ≤ x.man * 2 ^ (10 - msb x.man) := by
    calc 2 ^ 10 = 2 ^ msb x.man * 2 ^ (10 - msb x.man) := by rw [← pow_add]; congr 1; omega
      _ ≤ _ := Nat.mul_le_mul_right _ hle
  have hhigh : x.man * 2 ^ (10 - msb x.man) < 2 ^ 11 := by
    calc _ < 2 ^ (msb x.man + 1) * 2 ^ (10 - msb x.man) := Nat.mul_lt_mul_of_pos_right hgt (by positivity)
      _ = 2 ^ 11 := by rw [← pow_add]; congr 1; omega
  have hand : x.man * 2 ^ (10 - msb x.man) &&& 0x3FF = x.man * 2 ^ (10 - msb x.man) % 2 ^ 10 :=
    Nat.and_two_pow_sub_one_eq_mod _ 10
  rw [widenMan, if_pos c, Nat.shiftLeft_eq, hand]
  omega

/-- A widened half's significand is the half's own shifted by `DROP`, a subnormal's after it is normalised. -/
theorem significand_widen_subnormal {f : Format} (hf : f ≠ .binary16) {h : Nat}
    (c : Format.binary16.classOf (Format.binary16.split h) = .subnormal) :
    f.significand (f.split (widen f h)) =
      (Format.binary16.split h).man * 2 ^ (10 - msb (Format.binary16.split h).man) * 2 ^ f.drop := by
  rw [split_widen hf, Format.significand, if_neg (widenExp_of_number hf (.inl c)).1.ne', ← f.drop_add_ten,
    ← two_pow_add_widenMan c (msb_man_lt h), Nat.shiftLeft_eq]
  ring

theorem significand_widen_normal {f : Format} (hf : f ≠ .binary16) {h : Nat}
    (c : Format.binary16.classOf (Format.binary16.split h) = .normal) :
    f.significand (f.split (widen f h)) = (2 ^ 10 + (Format.binary16.split h).man) * 2 ^ f.drop := by
  rw [split_widen hf, Format.significand, if_neg (widenExp_of_number hf (.inr c)).1.ne', ← f.drop_add_ten,
    widenMan, if_neg (by simp [c]), Nat.shiftLeft_eq]
  ring

theorem abs_val_widen_subnormal {f : Format} (hf : f ≠ .binary16) {h : Nat}
    (c : Format.binary16.classOf (Format.binary16.split h) = .subnormal) :
    |f.val (widen f h)| = |Format.binary16.val h| := by
  obtain ⟨hbias, -⟩ := Format.wide_constants hf
  obtain ⟨hzero, -⟩ := (Format.classOf_eq_subnormal_iff _ _).1 c
  have hexp : ((max 1 (widenExp f (Format.binary16.split h)) : ℕ) : ℤ) - f.bias - f.manWidth =
      -24 - ((10 - msb (Format.binary16.split h).man : ℕ) : ℤ) - (f.drop : ℤ) := by
    have hmsb := msb_man_lt h
    have hman := f.drop_add_ten
    have hbase : widenExp f (Format.binary16.split h) = f.bias - 24 + msb (Format.binary16.split h).man := by
      simp only [widenExp, c]; rfl
    omega
  rw [f.abs_val_eq_significand, significand_widen_subnormal hf c, split_widen hf, hexp, zpow_sub₀ two_ne_zero,
    zpow_sub₀ two_ne_zero, zpow_natCast, zpow_natCast, Format.abs_val_eq_significand, Format.significand, if_pos hzero,
    hzero, Format.bias_binary16, Format.manWidth_binary16]
  push_cast
  field_simp
  norm_num
  ring

theorem abs_val_widen_normal {f : Format} (hf : f ≠ .binary16) {h : Nat}
    (c : Format.binary16.classOf (Format.binary16.split h) = .normal) :
    |f.val (widen f h)| = |Format.binary16.val h| := by
  obtain ⟨hbias, -⟩ := Format.wide_constants hf
  obtain ⟨hzero, -⟩ := (Format.classOf_eq_normal_iff _ _).1 c
  have hexp : ((max 1 (widenExp f (Format.binary16.split h)) : ℕ) : ℤ) - f.bias - f.manWidth =
      ((max 1 (Format.binary16.split h).exp : ℕ) : ℤ) - (15 : ℕ) - (10 : ℕ) - (f.drop : ℤ) := by
    have hman := f.drop_add_ten
    have hbase : widenExp f (Format.binary16.split h) = (Format.binary16.split h).exp + (f.bias - 15) := by
      simp only [widenExp, c]; rfl
    omega
  rw [f.abs_val_eq_significand, significand_widen_normal hf c, split_widen hf, hexp, zpow_sub₀ two_ne_zero _ (f.drop : ℤ),
    zpow_natCast, Format.abs_val_eq_significand, Format.significand, if_neg hzero, Format.bias_binary16,
    Format.manWidth_binary16]
  push_cast
  field_simp

/-- Widening a finite half keeps its magnitude (R120). -/
theorem abs_val_widen {f : Format} (hf : f ≠ .binary16) {h : Nat} (hfin : Format.binary16.isFinite h = true) :
    |f.val (widen f h)| = |Format.binary16.val h| := by
  have hexp : (Format.binary16.split h).exp ≠ 31 := (Format.isFinite_iff _ h).1 hfin
  cases c : Format.binary16.classOf (Format.binary16.split h) with
  | zero =>
    obtain ⟨hexp, hman⟩ := (Format.classOf_eq_zero_iff _ _).1 c
    simp [Format.abs_val_eq_significand, Format.significand, split_widen hf, widenExp, widenMan, c, hexp, hman]
  | subnormal => exact abs_val_widen_subnormal hf c
  | normal => exact abs_val_widen_normal hf c
  | infinity => exact absurd ((Format.classOf_eq_infinity_iff _ _).1 c).1 hexp
  | nan => exact absurd ((Format.classOf_eq_nan_iff _ _).1 c).1 hexp

/-- Widening a finite half is exact (R120). -/
theorem val_widen {f : Format} (hf : f ≠ .binary16) {h : Nat} (hfin : Format.binary16.isFinite h = true) :
    f.val (widen f h) = Format.binary16.val h := by
  rw [f.val_eq_sign_mul_abs, Format.val_eq_sign_mul_abs .binary16 h, abs_val_widen hf hfin, split_widen hf]

/-- A half is finite exactly when what it widens to is. -/
theorem isFinite_widen_iff {f : Format} (hf : f ≠ .binary16) (h : Nat) :
    f.isFinite (widen f h) = true ↔ Format.binary16.isFinite h = true := by
  rw [f.isFinite_iff_classify, Format.isFinite_iff_classify, classify_widen hf]
  cases Format.binary16.classify h <;> simp [widenedClass]

theorem ne_binary16_of_widenOperand {i : Instr} {f : Format} {h : Half} (hi : Written.widenOperand i = some (f, h)) :
    f ≠ .binary16 := by
  cases i <;> cases hi <;> decide

/-- All that a widening does (R112, R118, R119). -/
theorem exec_of_widenOperand {i : Instr} {f : Format} {h : Half} (hi : Written.widenOperand i = some (f, h)) (s : State) :
    exec i s =
      .next { s with rsp := some { flags := 0b0000#4, y := BitVec.ofNat 64 (widen f h.toNat) } } := by
  cases i <;> cases hi <;> exact exec_eq_answer _ s

end Machine
end Sys2Proof
end

section
/-! Widening: exactness, and the two widths side by side. -/

namespace Sys2Proof.Proofs

open Sys2Proof.Machine

/-- Settles O38: the widened half's fields are read back from the pattern they make up (`split_widen`), and its significand
is the half's own, shifted. -/
theorem wideningIsExact : Obligations.WideningIsExact := by
  intro i f h s hi
  have hf := ne_binary16_of_widenOperand hi
  refine ⟨widen f h.toNat, widen_lt f h.toNat, exec_of_widenOperand hi s, by rw [split_widen hf],
    fun hfin => ⟨(isFinite_widen_iff hf _).2 hfin, val_widen hf hfin⟩, fun hc => ?_, fun hc => ?_, fun hc => ?_⟩
  · rw [classify_widen hf, hc]; rfl
  · rw [classify_widen hf, hc]; rfl
  · rw [classify_widen hf, hc]; rfl

/-- Settles O41: sign, class, value and the ten mantissa bits of a widening depend on the half alone; the two left shifts
differ by 29. -/
theorem wideningsAgree : Obligations.WideningsAgree := by
  intro h s
  have hf : Format.binary32 ≠ .binary16 := by decide
  have hg : Format.binary64 ≠ .binary16 := by decide
  refine ⟨widen .binary32 h.toNat, widen .binary64 h.toNat, widen_lt .binary32 h.toNat, widen_lt .binary64 h.toNat,
    exec_of_widenOperand rfl s, exec_of_widenOperand rfl s, ?_, ?_, fun hfin => ?_, ?_⟩
  · rw [split_widen hf, split_widen hg]
  · rw [classify_widen hf, classify_widen hg]
  · have hhalf := (isFinite_widen_iff hf _).1 hfin
    rw [val_widen hf hhalf, val_widen hg hhalf]
  · rw [split_widen hf, split_widen hg, Nat.shiftLeft_eq, Nat.shiftLeft_eq, mul_assoc]
    rfl

end Sys2Proof.Proofs
end

section
/-! SUPPORT. A half's sign and magnitude, and the magnitude a narrowing rounds to (spec/41_narrowing.md R80 to R94). -/

namespace Sys2Proof

/-! ## Sign and magnitude of a half -/

/-- The finite halves are those below the infinity. -/
theorem isFinite_binary16_iff (h : Nat) :
    Format.binary16.isFinite h = true ↔ Format.binary16.magnitude h < 0x7C00 := by
  have hexp : (Format.binary16.split h).exp < 32 := Format.binary16.split_exp_lt h
  have hman : (Format.binary16.split h).man < 1024 := Format.binary16.split_man_lt h
  rw [Format.isFinite_iff, Format.magnitude_eq, Format.emax_binary16, Format.manWidth_binary16]
  omega

/-- The infinities are the two patterns of the magnitude above the finite halves (R64). -/
theorem classify_binary16_eq_infinity {h : Nat} (hmag : Format.binary16.magnitude h = 0x7C00) :
    Format.binary16.classify h = .infinity := by
  have hexp : (Format.binary16.split h).exp < 32 := Format.binary16.split_exp_lt h
  have hman : (Format.binary16.split h).man < 1024 := Format.binary16.split_man_lt h
  rw [Format.magnitude_eq, Format.manWidth_binary16] at hmag
  rw [Format.classify, Format.classOf_eq_infinity_iff, Format.emax_binary16]
  omega

theorem man_mod_two_binary16 (h : Nat) : (Format.binary16.split h).man % 2 = Format.binary16.magnitude h % 2 := by
  rw [Format.magnitude_eq, Format.manWidth_binary16]
  omega

theorem Format.tOvf_le_emax (f : Format) : f.tOvf ≤ f.emax := by cases f <;> decide

namespace Machine

/-- A half put together from sign and magnitude has them. -/
theorem split_halfOf_sign {sign mag : Nat} (hs : sign < 2) (hm : mag < 2 ^ 15) :
    (Format.binary16.split (halfOf sign mag)).sign = sign := by
  rw [halfOf_eq_add _ _ hm, Format.split, Format.width_binary16, Nat.shiftRight_eq_div_pow]
  dsimp only
  omega

theorem magnitude_halfOf {sign mag : Nat} (hm : mag < 2 ^ 15) : Format.binary16.magnitude (halfOf sign mag) = mag := by
  rw [halfOf_eq_add _ _ hm, Format.magnitude, Format.width_binary16]
  omega

/-- The other sign over a magnitude is bit 15 flipped. -/
theorem halfOf_one_sub {sign mag : Nat} (hs : sign < 2) (hm : mag < 2 ^ 15) :
    halfOf (1 - sign) mag = halfOf sign mag ^^^ 2 ^ 15 := by
  have hor : 2 ^ 15 ||| mag = mag ^^^ 2 ^ 15 := by
    refine Nat.eq_of_testBit_eq fun i => ?_
    rw [Nat.testBit_or, Nat.testBit_xor, Nat.testBit_two_pow]
    rcases eq_or_ne 15 i with rfl | hi
    · simp [Nat.testBit_lt_two_pow hm]
    · simp [hi]
  have hzero : halfOf 0 mag = mag := Nat.zero_or mag
  have hone : halfOf 1 mag = 2 ^ 15 ||| mag := rfl
  interval_cases sign
  · rw [hzero, ← hor, ← hone]
  · rw [hone, hor, Nat.xor_xor_cancel_right]
    exact hzero

/-! ## The sign plays no part (spec/40_formats.md R68) -/

/-- Patterns that differ in the sign alone narrow to one magnitude under their signs, with the same conditions. -/
theorem narrow_eq_halfOf (cfg : Config) (f : Format) (p : Nat) :
    ∃ mag flags, mag < 2 ^ 15 ∧ ∀ q sign, f.split q = { f.split p with sign := sign } →
      narrow cfg f q = { r := halfOf sign mag, flags := flags } := by
  have hm := f.split_man_lt p
  have hclass : ∀ {q sign}, f.split q = { f.split p with sign := sign } →
      narrowClass f (f.split q) = narrowClass f (f.split p) := fun hq => by rw [hq]; rfl
  rcases narrowClass_cases f (f.split p) with ⟨c, -⟩ | ⟨c, -, -, he⟩ | ⟨c, -, -, he⟩ | ⟨c, -⟩ | ⟨c, -⟩ | ⟨c, -⟩
  · refine ⟨0, tinyFlags (decide (f.magnitude p ≠ 0)), by decide, fun q sign hq => ?_⟩
    rw [narrow_zero ((hclass hq).trans c), narrowZero, f.magnitude_eq q, hq, f.magnitude_eq p]
  · refine ⟨_, (narrowSubnormal f (f.split p)).flags, (narrowSubnormal_q_le hm he).trans_lt (by decide),
      fun q sign hq => ?_⟩
    rw [narrow_subnormal ((hclass hq).trans c), hq]
    rfl
  · have hq := narrowNormal_q_le hm
    have he := narrowNormal_exp_le he
    refine ⟨((f.split p).exp - f.rebias) <<< 10 + (rne (f.split p).man f.drop).q,
      (narrowNormal f (f.split p)).flags, by rw [Nat.shiftLeft_eq]; omega, fun q sign hq => ?_⟩
    rw [narrow_normal ((hclass hq).trans c), hq]
    simp only [narrowNormal]
    split_ifs with h
    · rw [h]
    · rfl
  · refine ⟨0x7C00, overflowFlags, by decide, fun q sign hq => ?_⟩
    rw [narrow_overflow ((hclass hq).trans c), hq]
    rfl
  · refine ⟨0x7C00, noFlags, by decide, fun q sign hq => ?_⟩
    rw [narrow_inf ((hclass hq).trans c), hq]
    rfl
  · refine ⟨0x7C00 ||| nanMantissa cfg f (f.split p), noFlags,
      Nat.or_lt_two_pow (by decide) ((nanMantissa_lt cfg f p).trans (by decide)),
      fun q sign hq => ?_⟩
    rw [narrow_nan ((hclass hq).trans c), hq]
    rfl

/-- A narrowing copies the sign (R82). -/
theorem split_narrow_sign (cfg : Config) (f : Format) (p : Nat) :
    (Format.binary16.split (narrow cfg f p).r).sign = (f.split p).sign := by
  obtain ⟨mag, flags, hmag, h⟩ := narrow_eq_halfOf cfg f p
  rw [h p _ rfl]
  exact split_halfOf_sign (f.split_sign_lt p) hmag

/-- Flipping the operand's sign flips the half's, and nothing else (R94). -/
theorem narrow_xor_sign (cfg : Config) (f : Format) (p : Nat) :
    narrow cfg f (p ^^^ 2 ^ (f.width - 1)) =
      { r := (narrow cfg f p).r ^^^ 2 ^ 15, flags := (narrow cfg f p).flags } := by
  obtain ⟨mag, flags, hmag, h⟩ := narrow_eq_halfOf cfg f p
  rw [h p (f.split p).sign rfl, h _ _ (f.split_xor_sign p), halfOf_one_sub (f.split_sign_lt p) hmag]

/-! ## Rounding to the halves -/

/-- A quotient of `2^n` or more rounds to no less. -/
theorem two_pow_le_rne_q {v sh n : Nat} (h : 2 ^ (sh + n) ≤ v) : 2 ^ n ≤ (rne v sh).q := by
  by_contra hq
  have hmid : ¬ (2 * (2 ^ n - 1) + 1) * 2 ^ sh < 2 * v := fun hlt => by
    have := (lt_rne_q_iff v sh (2 ^ n - 1)).2 (.inl hlt)
    omega
  have hlt : (2 * (2 ^ n - 1) + 1) * 2 ^ sh < 2 * 2 ^ n * 2 ^ sh :=
    Nat.mul_lt_mul_of_pos_right (by have := Nat.two_pow_pos n; omega) (Nat.two_pow_pos sh)
  rw [pow_add] at h
  nlinarith

/-- `rne` rounds among the multiples of a unit what stands `2^sh` times in it. -/
theorem rne_roundsTo_unit (v sh N : Nat) {u : ℚ} (hu : 0 < u) :
    RoundsTo (fun n => (n : ℚ) * u) N (v / 2 ^ sh * u) (rne v sh).q := by
  intro n _
  have hmid : (n : ℚ) * u + ((n + 1 : ℕ) : ℚ) * u = (((2 * n + 1) * 2 ^ sh : ℕ) : ℚ) * (u / 2 ^ sh) := by
    push_cast; field_simp; ring
  have hval : 2 * ((v : ℚ) / 2 ^ sh * u) = ((2 * v : ℕ) : ℚ) * (u / 2 ^ sh) := by
    push_cast; ring
  rw [hmid, hval, mul_lt_mul_iff_left₀ (by positivity), mul_left_inj' (by positivity), Nat.cast_lt, Nat.cast_inj,
    lt_rne_q_iff]

/-- Rounding a quotient within a block of halves is rounding to the half values: in the block these are the multiples of
its unit, and below and above it the quotient and the value compare alike. -/
theorem rne_roundsTo_binary16 {e v sh : Nat} (he : e ≤ 29) (hlt : v < 2 ^ (sh + 11)) (hle : e = 0 ∨ 2 ^ (sh + 10) ≤ v) :
    RoundsTo Format.binary16.val 0x7C00 (v / 2 ^ sh * (2 : ℚ) ^ ((e : ℤ) - 24)) (1024 * e + (rne v sh).q) := by
  intro n hn
  have hunit : (0 : ℚ) < 2 ^ ((e : ℤ) - 24) := by positivity
  have hpow : (0 : ℚ) < 2 ^ sh := by positivity
  have hnext := val_binary16_lt (Nat.lt_succ_self n) hn
  rcases lt_or_ge n (1024 * e + 2048) with habove | habove
  · by_cases hbelow : e = 0 ∨ 1024 * e + 1024 ≤ n
    · obtain ⟨m, rfl⟩ : ∃ m, n = 1024 * e + m := ⟨n - 1024 * e, by omega⟩
      rw [add_assoc, val_binary16_block he (by omega) (by omega), val_binary16_block he (by omega) (by omega),
        Nat.add_lt_add_iff_left, show (1024 * e + m) % 2 = m % 2 by omega]
      exact rne_roundsTo_unit v sh (m + 1) hunit m (Nat.lt_succ_self m)
    · obtain ⟨he0, hn1⟩ := not_or.1 hbelow
      have hv := hle.resolve_left he0
      have hq := two_pow_le_rne_q hv
      have hx : (1024 : ℚ) ≤ v / 2 ^ sh := by
        rw [pow_add, Nat.mul_comm] at hv
        rw [le_div_iff₀ hpow]
        exact_mod_cast hv
      have hstart : Format.binary16.val (n + 1) ≤ ((1024 : ℕ) : ℚ) * 2 ^ ((e : ℤ) - 24) := by
        rw [← val_binary16_block he (by decide) (.inr le_rfl)]
        exact val_binary16_le (by omega) (by omega)
      have hxu := mul_le_mul_of_nonneg_right hx hunit.le
      push_cast at hstart
      exact iff_of_true (by omega) (.inl (by linarith))
  · have hq : (rne v sh).q ≤ 2 ^ 11 := rne_q_le_two_pow hlt
    have hx : (v : ℚ) / 2 ^ sh < 2048 := by
      rw [pow_add, Nat.mul_comm] at hlt
      rw [div_lt_iff₀ hpow]
      exact_mod_cast hlt
    have hend : ((2048 : ℕ) : ℚ) * 2 ^ ((e : ℤ) - 24) ≤ Format.binary16.val n := by
      rw [← val_binary16_block he le_rfl (.inr (by decide))]
      exact val_binary16_le habove hn.le
    have hxu := mul_lt_mul_of_pos_right hx hunit
    push_cast at hend
    exact iff_of_false (by omega) (by rintro (h | ⟨h, -⟩) <;> linarith)

/-- The shift of the significand that leaves the half's mantissa (R85, R86). -/
def narrowShift (f : Format) (x : Fields) : Nat := f.tNorm - max 1 x.exp + f.drop

/-- The magnitude a finite operand below class `OVERFLOW` rounds to: the rounded significand in its block of halves. -/
def narrowMag (f : Format) (x : Fields) : Nat :=
  1024 * (x.exp - f.tNorm) + (rne (f.significand x) (narrowShift f x)).q

/-- Below class `SUBNORMAL` the significand is less than half a unit (R84). -/
theorem two_mul_significand_lt {f : Format} (hf : f ≠ .binary16) {p : Nat} (he : (f.split p).exp < f.tSub) :
    2 * f.significand (f.split p) < 2 ^ narrowShift f (f.split p) := by
  obtain ⟨hbias, -⟩ := Format.wide_constants hf
  have hsub : f.tSub = f.bias - 25 := rfl
  have hnorm := f.tNorm_add_fourteen
  have hdrop := f.drop_add_ten
  have hsig := f.significand_lt p
  have hshift : f.manWidth + 2 ≤ narrowShift f (f.split p) := by rw [narrowShift]; omega
  have hpow : 2 ^ (f.manWidth + 2) ≤ 2 ^ narrowShift f (f.split p) := Nat.pow_le_pow_right (by decide) hshift
  rw [pow_succ] at hpow
  omega

/-- From class `SUBNORMAL` on the leading bit is there. -/
theorem significand_of_tSub_le {f : Format} (hf : f ≠ .binary16) {x : Fields} (he : f.tSub ≤ x.exp) :
    f.significand x = 2 ^ f.manWidth + x.man := by
  obtain ⟨hbias, -⟩ := Format.wide_constants hf
  have hsub : f.tSub = f.bias - 25 := rfl
  rw [Format.significand, if_neg (by omega)]

/-! Classes `ZERO`, `SUBNORMAL` and `NORMAL` round the significand alike; they differ in the conditions (R84 to R86). -/

theorem narrow_zero_eq_rne {f : Format} (hf : f ≠ .binary16) (cfg : Config) {p : Nat}
    (c : narrowClass f (f.split p) = .zero) (he : (f.split p).exp < f.tSub) :
    narrow cfg f p = { r := halfOf (f.split p).sign (narrowMag f (f.split p)),
                       flags := tinyFlags (rne (f.significand (f.split p)) (narrowShift f (f.split p))).inexact } := by
  have hexp : (f.split p).exp - f.tNorm = 0 := by
    have hsub : f.tSub = f.bias - 25 := rfl
    have hnorm := f.tNorm_add_fourteen
    omega
  have hzero : decide (f.magnitude p ≠ 0) = decide (f.significand (f.split p) ≠ 0) := by
    rw [decide_eq_decide, f.magnitude_eq, Format.significand]
    split_ifs with h <;> simp [h]
  rw [narrow_zero c, narrowZero, narrowMag, rne_of_lt_half (two_mul_significand_lt hf he), hexp, hzero]
  rfl

theorem narrow_subnormal_eq_rne {f : Format} (hf : f ≠ .binary16) (cfg : Config) {p : Nat}
    (c : narrowClass f (f.split p) = .subnormal) (he : f.tSub ≤ (f.split p).exp) (he' : (f.split p).exp < f.tNorm) :
    narrow cfg f p = { r := halfOf (f.split p).sign (narrowMag f (f.split p)),
                       flags := tinyFlags (rne (f.significand (f.split p)) (narrowShift f (f.split p))).inexact } := by
  obtain ⟨hbias, -⟩ := Format.wide_constants hf
  have hsub : f.tSub = f.bias - 25 := rfl
  have hor : 2 ^ f.manWidth ||| (f.split p).man = 2 ^ f.manWidth + (f.split p).man := by
    simpa using (Nat.two_pow_add_eq_or_of_lt (f.split_man_lt p) 1).symm
  rw [narrow_subnormal c, narrowSubnormal, narrowMag, hor, significand_of_tSub_le hf he, narrowShift,
    max_eq_right (by omega), Nat.sub_eq_zero_of_le he'.le, Nat.mul_zero, Nat.zero_add]

theorem narrow_normal_eq_rne {f : Format} (hf : f ≠ .binary16) (cfg : Config) {p : Nat}
    (c : narrowClass f (f.split p) = .normal) (he : f.tNorm ≤ (f.split p).exp) :
    narrow cfg f p = { r := halfOf (f.split p).sign (narrowMag f (f.split p)),
                       flags := if narrowMag f (f.split p) = 0x7C00 then overflowFlags
                         else inexactFlags (rne (f.significand (f.split p)) (narrowShift f (f.split p))).inexact } := by
  obtain ⟨hbias, -, hdrop⟩ := Format.wide_constants hf
  have hsub : f.tSub = f.bias - 25 := rfl
  have hnorm := f.tNorm_add_fourteen
  have hrebias : f.rebias = f.bias - 15 := rfl
  have hshift : narrowShift f (f.split p) = f.drop := by rw [narrowShift]; omega
  have hsig : f.significand (f.split p) = 2 ^ f.drop * (2 * 512) + (f.split p).man := by
    rw [significand_of_tSub_le hf (by omega), ← f.drop_add_ten, pow_add]; rfl
  have hmag : narrowMag f (f.split p) = ((f.split p).exp - f.rebias) <<< 10 + (rne (f.split p).man f.drop).q := by
    rw [narrowMag, hshift, hsig, rne_add_mul_two_pow hdrop, Nat.shiftLeft_eq]
    dsimp only
    omega
  rw [narrow_normal c, narrowNormal, ← hmag, hshift, hsig, rne_add_mul_two_pow hdrop]
  dsimp only
  split_ifs with h
  · rw [h]
  · rfl

/-- The magnitude of a finite operand below class `OVERFLOW` is its significand in the unit of its block. -/
theorem abs_val_eq_shifted {f : Format} (hf : f ≠ .binary16) (p : Nat) :
    |f.val p| = f.significand (f.split p) / 2 ^ narrowShift f (f.split p) *
      (2 : ℚ) ^ (((f.split p).exp - f.tNorm : ℕ) - (24 : ℤ)) := by
  obtain ⟨hbias, -⟩ := Format.wide_constants hf
  have hnorm := f.tNorm_add_fourteen
  have hdrop := f.drop_add_ten
  have hexp : ((max 1 (f.split p).exp : ℕ) : ℤ) - f.bias - f.manWidth =
      ((f.split p).exp - f.tNorm : ℕ) - 24 - (narrowShift f (f.split p) : ℤ) := by rw [narrowShift]; omega
  rw [f.abs_val_eq_significand, hexp, zpow_sub₀ two_ne_zero _ (narrowShift f (f.split p) : ℤ), zpow_natCast]
  ring

/-- Class `OVERFLOW` begins after the last block of halves. -/
theorem tOvf_sub_tNorm_le {f : Format} {e : Nat} (he : e < f.tOvf) : e - f.tNorm ≤ 29 := by
  have hnorm := f.tNorm_add_fourteen
  have hovf : f.tOvf = f.bias + 16 := rfl
  omega

theorem significand_lt_shift (f : Format) (p : Nat) :
    f.significand (f.split p) < 2 ^ (narrowShift f (f.split p) + 11) := by
  have hdrop := f.drop_add_ten
  exact (f.significand_lt p).trans_le (Nat.pow_le_pow_right (by decide) (by rw [narrowShift]; omega))

/-- From the second block on the shifted significand keeps its leading bit. -/
theorem shift_le_significand {f : Format} (hf : f ≠ .binary16) (p : Nat) :
    (f.split p).exp - f.tNorm = 0 ∨ 2 ^ (narrowShift f (f.split p) + 10) ≤ f.significand (f.split p) := by
  obtain ⟨hbias, -⟩ := Format.wide_constants hf
  have hsub : f.tSub = f.bias - 25 := rfl
  have hnorm := f.tNorm_add_fourteen
  have hdrop := f.drop_add_ten
  refine or_iff_not_imp_left.2 fun he => ?_
  have hshift : narrowShift f (f.split p) + 10 = f.manWidth := by rw [narrowShift]; omega
  rw [hshift, significand_of_tSub_le hf (by omega)]
  omega

/-- A finite operand below class `OVERFLOW` rounds to its half magnitude. -/
theorem narrowMag_roundsTo {f : Format} (hf : f ≠ .binary16) {p : Nat} (he : (f.split p).exp < f.tOvf) :
    RoundsTo Format.binary16.val 0x7C00 |f.val p| (narrowMag f (f.split p)) := by
  rw [abs_val_eq_shifted hf]
  exact rne_roundsTo_binary16 (tOvf_sub_tNorm_le he) (significand_lt_shift f p) (shift_le_significand hf p)

/-- The rounded magnitude goes up to the infinity's and no further. -/
theorem narrowMag_le {f : Format} {p : Nat} (he : (f.split p).exp < f.tOvf) :
    narrowMag f (f.split p) ≤ 0x7C00 := by
  have hq := rne_q_le_two_pow (significand_lt_shift f p)
  have hblock := tOvf_sub_tNorm_le he
  rw [narrowMag]
  omega

theorem narrowMag_lt_of_lt_tNorm {f : Format} {p : Nat} (he : (f.split p).exp < f.tNorm) :
    narrowMag f (f.split p) < 0x7C00 := by
  have hq := rne_q_le_two_pow (significand_lt_shift f p)
  rw [narrowMag]
  omega

/-- What a narrowing gives below class `OVERFLOW`: the rounded magnitude, with `NX` where it is no exact one or the
infinity. -/
theorem narrow_of_lt_tOvf {f : Format} (hf : f ≠ .binary16) (cfg : Config) {p : Nat} (he : (f.split p).exp < f.tOvf) :
    (narrow cfg f p).r = halfOf (f.split p).sign (narrowMag f (f.split p)) ∧
      ((narrow cfg f p).flags.getLsbD 0 = true ↔ narrowMag f (f.split p) = 0x7C00 ∨
        (rne (f.significand (f.split p)) (narrowShift f (f.split p))).inexact = true) := by
  rcases narrowClass_cases f (f.split p) with ⟨c, -, he'⟩ | ⟨c, -, he', he''⟩ | ⟨c, -, he', -⟩ | ⟨-, -, he'⟩ |
      ⟨-, he', -⟩ | ⟨-, he', -⟩
  · have hmag := narrowMag_lt_of_lt_tNorm (he'.trans_le (Nat.sub_le_sub_left (by decide) _))
    simp [narrow_zero_eq_rne hf cfg c he', hmag.ne]
  · have hmag := narrowMag_lt_of_lt_tNorm he''
    simp [narrow_subnormal_eq_rne hf cfg c he' he'', hmag.ne]
  · rw [narrow_normal_eq_rne hf cfg c he']
    split_ifs with h <;> simp [h]
  · omega
  · exact absurd he (not_lt.2 (he' ▸ f.tOvf_le_emax))
  · exact absurd he (not_lt.2 (he' ▸ f.tOvf_le_emax))

theorem narrow_of_tOvf_le (cfg : Config) {f : Format} {p : Nat} (hfin : f.isFinite p = true)
    (he : f.tOvf ≤ (f.split p).exp) : narrow cfg f p = narrowOverflow (f.split p) := by
  have hsub : f.tSub ≤ f.tOvf := (Nat.sub_le _ _).trans (Nat.le_add_right _ _)
  have hnorm : f.tNorm ≤ f.tOvf := (Nat.sub_le _ _).trans (Nat.le_add_right _ _)
  refine narrow_overflow ?_
  rw [narrowClass, if_neg ((f.isFinite_iff p).1 hfin), if_neg (by omega), if_neg (by omega), if_neg (by omega)]

theorem val_binary16_infinity : Format.binary16.val 0x7C00 = 65536 := by
  have h := val_binary16_block (e := 29) (m := 2048) le_rfl le_rfl (.inr (by decide))
  norm_num at h
  exact h

/-- A finite operand of a wide format narrows to the magnitude its own is rounded to among those of the halves, the last
of which is the infinity (R94). -/
theorem narrow_roundsTo {f : Format} (hf : f ≠ .binary16) (cfg : Config) {p : Nat} (hfin : f.isFinite p = true) :
    RoundsTo Format.binary16.val 0x7C00 |f.val p| (Format.binary16.magnitude (narrow cfg f p).r) := by
  rcases lt_or_ge (f.split p).exp f.tOvf with he | he
  · rw [(narrow_of_lt_tOvf hf cfg he).1, magnitude_halfOf ((narrowMag_le he).trans_lt (by decide))]
    exact narrowMag_roundsTo hf he
  · rw [narrow_of_tOvf_le cfg hfin he, narrowOverflow, magnitude_halfOf (by decide)]
    intro n hn
    have hovf : f.tOvf = f.bias + 16 := rfl
    have hval : (2 : ℚ) ^ (16 : ℤ) ≤ |f.val p| :=
      (zpow_le_zpow_right₀ one_le_two (by omega)).trans (Format.le_abs_val (by omega))
    have hnext := val_binary16_lt (Nat.lt_succ_self n) hn
    have hle : Format.binary16.val (n + 1) ≤ Format.binary16.val 0x7C00 := val_binary16_le hn le_rfl
    rw [val_binary16_infinity] at hle
    norm_num at hval
    exact iff_of_true hn (.inl (by linarith))

/-- A finite operand narrows to no more than the infinity's magnitude. -/
theorem magnitude_narrow_le {f : Format} (hf : f ≠ .binary16) (cfg : Config) {p : Nat} (hfin : f.isFinite p = true) :
    Format.binary16.magnitude (narrow cfg f p).r ≤ 0x7C00 := by
  rcases lt_or_ge (f.split p).exp f.tOvf with he | he
  · rw [(narrow_of_lt_tOvf hf cfg he).1, magnitude_halfOf ((narrowMag_le he).trans_lt (by decide))]
    exact narrowMag_le he
  · rw [narrow_of_tOvf_le cfg hfin he, narrowOverflow, magnitude_halfOf (by decide)]

end Machine
end Sys2Proof
end

section
/-! SUPPORT. A narrowing's result as a value, and what stands on the ports after it. -/

namespace Sys2Proof.Machine

/-- The infinities' pattern values are the ends of the line of halves, so that line is the values throughout. -/
theorem halfOnLine_eq_val (r : Nat) : Written.halfOnLine r = Format.binary16.val r := by
  have hneg : Format.binary16.val 0xFC00 = -65536 := by
    have hsplit : (Format.binary16.split 0xFC00).sign = 1 := by decide
    have hmag : Format.binary16.magnitude 0xFC00 = 0x7C00 := by decide
    rw [Format.val_eq_sign_mul_val_magnitude, hsplit, hmag, val_binary16_infinity, pow_one, neg_one_mul]
  rw [Written.halfOnLine]
  split_ifs with hpos hneg'
  · rw [hpos, val_binary16_infinity]
  · rw [hneg', hneg]
  · rfl

/-- Seen from the side of an operand's sign, its own value is its magnitude. -/
theorem abs_sub_val_eq (f : Format) (p : Nat) (y : ℚ) :
    |y - f.val p| = |(-1) ^ (f.split p).sign * y - (|f.val p|)| := by
  have hval := f.val_eq_sign_mul_abs p
  rcases neg_one_pow_eq_or ℚ (f.split p).sign with hsign | hsign
  · rw [hsign, one_mul] at hval ⊢
    rw [← hval]
  · rw [hsign, neg_one_mul] at hval ⊢
    rw [← abs_neg, neg_eq_iff_eq_neg.1 hval.symm]
    ring_nf

/-- Seen from the side of the operand's sign, its result is its own magnitude. -/
theorem sign_mul_val_narrow (cfg : Config) (f : Format) (p : Nat) :
    (-1) ^ (f.split p).sign * Format.binary16.val (narrow cfg f p).r = |Format.binary16.val (narrow cfg f p).r| := by
  conv_lhs =>
    rw [Format.val_eq_sign_mul_abs, split_narrow_sign, ← mul_assoc, ← mul_pow, neg_one_mul, neg_neg, one_pow, one_mul]

/-- Of the finite halves none is nearer to a finite operand than its result, and where another is as near the result's
mantissa is even (R94). -/
theorem narrow_nearest {f : Format} (hf : f ≠ .binary16) (cfg : Config) {p h : Nat} (hfin : f.isFinite p = true)
    (hh : Format.binary16.isFinite h = true)
    (hne : Format.binary16.val h ≠ Format.binary16.val (narrow cfg f p).r) :
    |Format.binary16.val (narrow cfg f p).r - f.val p| < |Format.binary16.val h - f.val p| ∨
      (|Format.binary16.val (narrow cfg f p).r - f.val p| = |Format.binary16.val h - f.val p| ∧
        (Format.binary16.split (narrow cfg f p).r).man % 2 = 0) := by
  rw [abs_sub_val_eq f p (Format.binary16.val h), abs_sub_val_eq f p (Format.binary16.val (narrow cfg f p).r),
    man_mod_two_binary16, sign_mul_val_narrow, ← Format.val_magnitude]
  refine (narrow_roundsTo hf cfg hfin).abs_sub_lt_or_even_of_abs val_binary16_strictMonoOn val_binary16_zero
    (magnitude_narrow_le hf cfg hfin) (abs_nonneg _) ((isFinite_binary16_iff h).1 hh).le ?_ fun heq => hne ?_
  · rw [abs_mul, abs_neg_one_pow, one_mul, Format.val_magnitude]
  · rw [Format.val_magnitude, ← sign_mul_val_narrow] at heq
    exact mul_left_cancel₀ (pow_ne_zero _ (by norm_num)) heq

/-- Greater magnitudes narrow to no smaller ones. -/
theorem abs_val_narrow_le {f g : Format} (hf : f ≠ .binary16) (hg : g ≠ .binary16) (cfg : Config) {p q : Nat}
    (hp : f.isFinite p = true) (hq : g.isFinite q = true) (hle : |f.val p| ≤ |g.val q|) :
    |Format.binary16.val (narrow cfg f p).r| ≤ |Format.binary16.val (narrow cfg g q).r| := by
  rw [← Format.val_magnitude, ← Format.val_magnitude]
  have hmag := (narrow_roundsTo hf cfg hp).le_of_le (narrow_roundsTo hg cfg hq) (magnitude_narrow_le hf cfg hp) hle
  exact val_binary16_le hmag (magnitude_narrow_le hg cfg hq)

/-- The tie below the infinity is rounded up to it, its neighbour's place being odd (R94). -/
theorem magnitude_narrow_eq_iff {f : Format} (hf : f ≠ .binary16) (cfg : Config) {p : Nat} (hfin : f.isFinite p = true) :
    Format.binary16.magnitude (narrow cfg f p).r = 0x7C00 ↔ 65520 ≤ |f.val p| := by
  have hlast : Format.binary16.val 0x7BFF = 65504 := by
    have h := val_binary16_block (e := 29) (m := 2047) le_rfl (by decide) (.inr (by decide))
    norm_num at h
    exact h
  have hle := magnitude_narrow_le hf cfg hfin
  have htie := narrow_roundsTo hf cfg hfin 0x7BFF (by decide)
  have hmag : Format.binary16.magnitude (narrow cfg f p).r = 0x7C00 ↔
      0x7BFF < Format.binary16.magnitude (narrow cfg f p).r := by omega
  rw [hlast, val_binary16_infinity, and_iff_left (by decide), ← le_iff_lt_or_eq] at htie
  rw [hmag, htie]
  constructor <;> intro h <;> linarith

/-- A zero narrows to a zero. -/
theorem abs_val_narrow_of_val_zero {f : Format} (hf : f ≠ .binary16) (cfg : Config) {p : Nat}
    (hfin : f.isFinite p = true) (h0 : |f.val p| = 0) : |Format.binary16.val (narrow cfg f p).r| = 0 := by
  have hmag : Format.binary16.magnitude (narrow cfg f p).r = 0 := by
    by_contra hmag
    have hpos := val_binary16_lt Nat.zero_lt_one (by decide)
    rcases (narrow_roundsTo hf cfg hfin 0 (by decide)).1 (by omega) with h | ⟨-, hodd⟩
    · rw [val_binary16_zero] at hpos h
      linarith
    · omega
  rw [← Format.val_magnitude, hmag, val_binary16_zero]

/-- A narrowing keeps the order of values (R94). -/
theorem val_narrow_le {f g : Format} (hf : f ≠ .binary16) (hg : g ≠ .binary16) (cfg : Config) {p q : Nat}
    (hp : f.isFinite p = true) (hq : g.isFinite q = true) (hle : f.val p ≤ g.val q) :
    Format.binary16.val (narrow cfg f p).r ≤ Format.binary16.val (narrow cfg g q).r := by
  have hvp := f.val_eq_sign_mul_abs p
  have hvq := g.val_eq_sign_mul_abs q
  have hp0 := abs_nonneg (f.val p)
  have hq0 := abs_nonneg (g.val q)
  rw [Format.val_eq_sign_mul_abs .binary16 (narrow cfg f p).r, Format.val_eq_sign_mul_abs .binary16 (narrow cfg g q).r,
    split_narrow_sign, split_narrow_sign]
  rcases neg_one_pow_eq_or ℚ (f.split p).sign with hs | hs
  · rcases neg_one_pow_eq_or ℚ (g.split q).sign with ht | ht
    · rw [hs, one_mul] at hvp ⊢
      rw [ht, one_mul] at hvq ⊢
      exact abs_val_narrow_le hf hg cfg hp hq (by linarith)
    · rw [hs, one_mul] at hvp
      rw [ht, neg_one_mul] at hvq
      rw [abs_val_narrow_of_val_zero hf cfg hp (by linarith), abs_val_narrow_of_val_zero hg cfg hq (by linarith),
        mul_zero, mul_zero]
  · rcases neg_one_pow_eq_or ℚ (g.split q).sign with ht | ht
    · rw [hs, neg_one_mul, ht, one_mul]
      exact (neg_nonpos.2 (abs_nonneg _)).trans (abs_nonneg _)
    · rw [hs, neg_one_mul] at hvp ⊢
      rw [ht, neg_one_mul] at hvq ⊢
      exact neg_le_neg (abs_val_narrow_le hg hf cfg hq hp (by linarith))

/-- Below class `OVERFLOW` the value is kept exactly when the rounded significand is exact. -/
theorem abs_val_narrow_eq_iff {f : Format} (hf : f ≠ .binary16) (cfg : Config) {p : Nat}
    (he : (f.split p).exp < f.tOvf) :
    |Format.binary16.val (narrow cfg f p).r| = |f.val p| ↔
      (rne (f.significand (f.split p)) (narrowShift f (f.split p))).inexact = false := by
  obtain ⟨-, -, hdrop⟩ := Format.wide_constants hf
  have hblock : (f.split p).exp - f.tNorm = 0 ∨
      1024 ≤ (rne (f.significand (f.split p)) (narrowShift f (f.split p))).q :=
    (shift_le_significand hf p).imp_right two_pow_le_rne_q
  have hshift : 1 ≤ narrowShift f (f.split p) := hdrop.trans (Nat.le_add_left _ _)
  have hunit : (2 : ℚ) ^ (((f.split p).exp - f.tNorm : ℕ) - (24 : ℤ)) ≠ 0 := by positivity
  rw [← Format.val_magnitude, (narrow_of_lt_tOvf hf cfg he).1, magnitude_halfOf ((narrowMag_le he).trans_lt (by decide)),
    narrowMag, val_binary16_block (tOvf_sub_tNorm_le he) (rne_q_le_two_pow (significand_lt_shift f p)) hblock,
    abs_val_eq_shifted hf, mul_left_inj' hunit, eq_div_iff (by positivity),
    rne_inexact_eq_false_iff hshift]
  norm_cast
  exact eq_comm

/-- Results of one sign are the operand's number when their magnitudes are. -/
theorem val_narrow_eq_iff (cfg : Config) (f : Format) (p : Nat) :
    Format.binary16.val (narrow cfg f p).r = f.val p ↔ |Format.binary16.val (narrow cfg f p).r| = |f.val p| := by
  refine ⟨congrArg abs, fun h => ?_⟩
  rw [Format.val_eq_sign_mul_abs, split_narrow_sign, h, ← f.val_eq_sign_mul_abs]

/-- `NX` says that a finite operand's value changed (R88). -/
theorem narrow_flags_NX_iff {f : Format} (hf : f ≠ .binary16) (cfg : Config) {p : Nat} (hfin : f.isFinite p = true) :
    (narrow cfg f p).flags.getLsbD 0 = true ↔
      ¬ (Format.binary16.isFinite (narrow cfg f p).r = true ∧ Format.binary16.val (narrow cfg f p).r = f.val p) := by
  rw [isFinite_binary16_iff, val_narrow_eq_iff]
  rcases lt_or_ge (f.split p).exp f.tOvf with he | he
  · have hle := narrowMag_le he
    obtain ⟨hr, hNX⟩ := narrow_of_lt_tOvf hf cfg he
    rw [hNX, abs_val_narrow_eq_iff hf cfg he, hr, magnitude_halfOf (hle.trans_lt (by decide)), not_and_or, not_lt,
      hle.ge_iff_eq, Bool.not_eq_false]
  · have hmag : ¬ Format.binary16.magnitude (narrow cfg f p).r < 0x7C00 := by
      rw [narrow_of_tOvf_le cfg hfin he, narrowOverflow, magnitude_halfOf (by decide)]
      decide
    rw [narrow_of_tOvf_le cfg hfin he] at hmag ⊢
    exact iff_of_true (by simp [narrowOverflow]) fun h => hmag h.1

theorem ne_binary16_of_narrowOperand {i : Instr} {f : Format} {p : Nat} (hi : Written.narrowOperand i = some (f, p)) :
    f ≠ .binary16 := by
  cases i <;> cases hi <;> decide

/-- All that a narrowing does (R91, R92). -/
theorem exec_of_narrowOperand {i : Instr} {f : Format} {p : Nat} (hi : Written.narrowOperand i = some (f, p)) (s : State) :
    exec i s = .next { s with rsp := some {
      flags := (narrow s.cfg f p).flags, y := BitVec.ofNat 64 (narrow s.cfg f p).r } } := by
  rw [exec_eq_answer, answer_of_narrowOperand hi]
  rfl

/-- `NEG` of a half pattern on `y`. -/
theorem setWidth_negHalf_extractLsb' {r : Nat} (hr : r < 2 ^ 16) :
    (negHalf ((BitVec.ofNat 64 r).extractLsb' 0 16)).setWidth 64 = BitVec.ofNat 64 (r ^^^ 2 ^ 15) := by
  have hxor : r ^^^ 2 ^ 15 < 2 ^ 16 := Nat.xor_lt_two_pow hr (by decide)
  refine BitVec.eq_of_toNat_eq ?_
  rw [BitVec.toNat_ofNat, Nat.mod_eq_of_lt (hxor.trans (by decide)), BitVec.toNat_setWidth, negHalf, BitVec.toNat_xor,
    BitVec.extractLsb'_toNat, BitVec.toNat_ofNat, Nat.mod_eq_of_lt (hr.trans (by decide)), Nat.shiftRight_zero,
    Nat.mod_eq_of_lt hr]
  exact Nat.mod_eq_of_lt (hxor.trans (by decide))

/-- Narrowing an operand and the same with its sign flipped: equal conditions, and the second half is `NEG` of the first
(R94, spec/43_sign_ops.md R135). -/
theorem exec_narrow_flipped {i j : Instr} {f : Format} {p : Nat} (hi : Written.narrowOperand i = some (f, p))
    (hj : Written.narrowOperand j = some (f, p ^^^ 2 ^ (f.width - 1))) (s : State) :
    ∃ y z flags, exec i s = .next { s with rsp := some { flags := flags, y := y } } ∧
      exec j s = .next { s with rsp := some { flags := flags, y := z } } ∧
      exec (.neg (y.extractLsb' 0 16)) s = .next { s with rsp := some { flags := 0b0000#4, y := z } } := by
  refine ⟨_, BitVec.ofNat 64 ((narrow s.cfg f p).r ^^^ 2 ^ 15), _, exec_of_narrowOperand hi s, ?_, ?_⟩
  · rw [exec_of_narrowOperand hj, narrow_xor_sign]
  · rw [exec_neg, setWidth_negHalf_extractLsb' (narrow_r_lt s.cfg f p)]
    rfl

end Sys2Proof.Machine
end

section
/-! Narrowing: correct rounding, exactness, order and sign. -/

namespace Sys2Proof.Proofs

open Sys2Proof.Machine

/-- Settles O30: the result's magnitude is what the operand's is rounded to among the half values up to the infinity's
65536 (`narrow_roundsTo`); nearness and the even tie are properties of such a rounding, and 65520 is the last midpoint. -/
theorem narrowingRoundsCorrectly : Obligations.NarrowingRoundsCorrectly := by
  intro i f p s hi hfin
  have hf := ne_binary16_of_narrowOperand hi
  have hinf := magnitude_narrow_eq_iff hf s.cfg hfin
  refine ⟨_, _, narrow_r_lt s.cfg f p, exec_of_narrowOperand hi s, split_narrow_sign s.cfg f p, fun hlt => ⟨?_, ?_⟩,
    fun hge => classify_binary16_eq_infinity (hinf.2 hge)⟩
  · rw [isFinite_binary16_iff]
    exact (magnitude_narrow_le hf s.cfg hfin).lt_of_ne fun h => absurd (hinf.1 h) (not_le.2 hlt)
  · intro h _ hh
    by_cases heq : Format.binary16.val h = Format.binary16.val (narrow s.cfg f p).r
    · rw [heq]
      exact ⟨le_rfl, fun _ hne => absurd rfl hne⟩
    · rcases narrow_nearest hf s.cfg hfin hh heq with h | ⟨h, heven⟩
      · exact ⟨h.le, fun htie _ => absurd htie h.ne'⟩
      · exact ⟨h.le, fun _ _ => heven⟩

/-- Settles O31: below class `OVERFLOW` the value is kept exactly when `rne` discards nothing and does not carry to the
infinity. -/
theorem inexactSaysTheValueChanged : Obligations.InexactSaysTheValueChanged := by
  intro i f p s hi
  refine ⟨_, _, narrow_r_lt s.cfg f p, exec_of_narrowOperand hi s,
    narrow_flags_NX_iff (ne_binary16_of_narrowOperand hi) s.cfg, fun hfin => ?_⟩
  rw [narrow_flags_of_not_finite s.cfg hfin]
  rfl

/-- Settles O33: the line of halves is the half values with 65536 for the infinity, and rounding to them is monotonic. -/
theorem narrowingIsMonotonic : Obligations.NarrowingIsMonotonic := by
  intro i j f g p q s hi hj hp hq hle
  refine ⟨_, _, _, _, narrow_r_lt s.cfg f p, narrow_r_lt s.cfg g q, exec_of_narrowOperand hi s,
    exec_of_narrowOperand hj s, ?_⟩
  rw [halfOnLine_eq_val, halfOnLine_eq_val]
  exact val_narrow_le (ne_binary16_of_narrowOperand hi) (ne_binary16_of_narrowOperand hj) s.cfg hp hq hle

/-- Settles O34: operands that differ in the sign alone narrow to one magnitude with one set of conditions. -/
theorem narrowingIsOdd : Obligations.NarrowingIsOdd :=
  ⟨fun w s => exec_narrow_flipped rfl (by rw [Written.narrowOperand, BitVec.toNat_xor]; rfl) s,
    fun d s => exec_narrow_flipped rfl (by rw [Written.narrowOperand, BitVec.toNat_xor]; rfl) s⟩

end Sys2Proof.Proofs
end

section
/-! SUPPORT. A narrowing's class by its fields and by its magnitude pattern, and the rule's own order of cases
(spec/41_narrowing.md R81, R83, R91, R92). -/

namespace Sys2Proof

/-- The exponent field stands above the mantissa field, so it bounds the magnitude pattern. -/
theorem Format.exp_lt_iff_magnitude_lt (f : Format) (p e : Nat) :
    (f.split p).exp < e ↔ f.magnitude p < e * 2 ^ f.manWidth := by
  have hm := f.split_man_lt p
  have hpos := Nat.two_pow_pos f.manWidth
  rw [f.magnitude_eq, ← Nat.div_lt_iff_lt_mul hpos, Nat.mul_comm, Nat.mul_add_div hpos, Nat.div_eq_of_lt hm, add_zero]

theorem Format.split_exp_le_emax (f : Format) (p : Nat) : (f.split p).exp ≤ f.emax :=
  Nat.le_sub_one_of_lt (f.split_exp_lt p)

/-- R81's thresholds ascend. -/
theorem Format.thresholds_le (f : Format) : f.tSub ≤ f.tNorm ∧ f.tNorm ≤ f.tOvf ∧ f.tOvf ≤ f.emax := by
  cases f <;> decide

namespace Machine

/-! ## Each class of R81 by the fields -/

theorem narrowClass_eq_zero_iff (f : Format) (x : Fields) : narrowClass f x = .zero ↔ x.exp < f.tSub := by
  obtain ⟨hnorm, hovf, hemax⟩ := f.thresholds_le
  unfold narrowClass
  split_ifs <;> simp <;> omega

theorem narrowClass_eq_subnormal_iff (f : Format) (x : Fields) :
    narrowClass f x = .subnormal ↔ f.tSub ≤ x.exp ∧ x.exp < f.tNorm := by
  obtain ⟨hnorm, hovf, hemax⟩ := f.thresholds_le
  unfold narrowClass
  split_ifs <;> simp <;> omega

theorem narrowClass_eq_normal_iff (f : Format) (x : Fields) :
    narrowClass f x = .normal ↔ f.tNorm ≤ x.exp ∧ x.exp < f.tOvf := by
  obtain ⟨hnorm, hovf, hemax⟩ := f.thresholds_le
  unfold narrowClass
  split_ifs <;> simp <;> omega

theorem narrowClass_eq_overflow_iff {f : Format} {x : Fields} (he : x.exp ≤ f.emax) :
    narrowClass f x = .overflow ↔ f.tOvf ≤ x.exp ∧ x.exp < f.emax := by
  obtain ⟨hnorm, hovf, hemax⟩ := f.thresholds_le
  unfold narrowClass
  split_ifs <;> simp <;> omega

theorem narrowClass_eq_inf_iff (f : Format) (x : Fields) : narrowClass f x = .inf ↔ x.exp = f.emax ∧ x.man = 0 := by
  unfold narrowClass
  split_ifs <;> simp [*]

theorem narrowClass_eq_nan_iff (f : Format) (x : Fields) : narrowClass f x = .nan ↔ x.exp = f.emax ∧ x.man ≠ 0 := by
  unfold narrowClass
  split_ifs <;> simp [*]

/-! ## The ranges of the magnitude pattern (R83) -/

/-- The classes of R81 divide the magnitude patterns at each threshold's exponent field over a zero mantissa. -/
theorem narrowClass_iff_magnitude {f : Format} (hpos : 0 < f.tSub) (p : Nat) :
    (narrowClass f (f.split p) = .zero ↔ f.magnitude p ≤ f.tSub * 2 ^ f.manWidth - 1) ∧
    (narrowClass f (f.split p) = .subnormal ↔
      f.tSub * 2 ^ f.manWidth ≤ f.magnitude p ∧ f.magnitude p ≤ f.tNorm * 2 ^ f.manWidth - 1) ∧
    (narrowClass f (f.split p) = .normal ↔
      f.tNorm * 2 ^ f.manWidth ≤ f.magnitude p ∧ f.magnitude p ≤ f.tOvf * 2 ^ f.manWidth - 1) ∧
    (narrowClass f (f.split p) = .overflow ↔
      f.tOvf * 2 ^ f.manWidth ≤ f.magnitude p ∧ f.magnitude p ≤ f.emax * 2 ^ f.manWidth - 1) ∧
    (narrowClass f (f.split p) = .inf ↔ f.magnitude p = f.emax * 2 ^ f.manWidth) ∧
    (narrowClass f (f.split p) = .nan ↔ f.emax * 2 ^ f.manWidth < f.magnitude p) := by
  obtain ⟨hnorm, hovf, hemax⟩ := f.thresholds_le
  have hlt : ∀ {e}, 0 < e → ((f.split p).exp < e ↔ f.magnitude p ≤ e * 2 ^ f.manWidth - 1) := fun {e} he => by
    rw [f.exp_lt_iff_magnitude_lt, Nat.le_sub_one_iff_lt (by positivity)]
  have hge : ∀ e, e ≤ (f.split p).exp ↔ e * 2 ^ f.manWidth ≤ f.magnitude p := fun e => by
    rw [← not_lt, f.exp_lt_iff_magnitude_lt, not_lt]
  have hle := f.split_exp_le_emax p
  have htop : (f.split p).exp = f.emax → f.magnitude p = f.emax * 2 ^ f.manWidth + (f.split p).man := fun h => by
    rw [f.magnitude_eq, h]
  refine ⟨?_, ?_, ?_, ?_, ?_, ?_⟩
  · rw [narrowClass_eq_zero_iff, hlt hpos]
  · rw [narrowClass_eq_subnormal_iff, hge, hlt (by omega)]
  · rw [narrowClass_eq_normal_iff, hge, hlt (by omega)]
  · rw [narrowClass_eq_overflow_iff hle, hge, hlt (by omega)]
  · have := hge f.emax
    rw [narrowClass_eq_inf_iff]
    omega
  · have := hge f.emax
    rw [narrowClass_eq_nan_iff]
    omega

/-! ## The rule's pseudocode for a Format Descriptor (R91, R92) -/

/-- What R91 and R92 have in common: their pseudocode with the constants taken from the Format Descriptor. -/
def writtenNarrow (cfg : Config) (f : Format) (p : Nat) : Nat × FlagSet :=
  let E := (f.split p).exp
  let m := (f.split p).man
  let S := (f.split p).sign <<< 15
  if E = f.emax ∧ m ≠ 0 then
    let q := if cfg.nanPolicy = .canonical then cfg.canonicalNanMant.toNat
      else if m >>> f.drop = 0 then 1 else m >>> f.drop
    (S ||| 0x7C00 ||| q, noFlags)
  else if E = f.emax then (S ||| 0x7C00, noFlags)
  else if E ≤ f.tSub - 1 then (S, if f.magnitude p ≠ 0 then flagUF ||| flagNX else noFlags)
  else if E ≤ f.tNorm - 1 then
    let k := rne (2 ^ f.manWidth ||| m) (f.tNorm + f.drop - E)
    (S ||| k.q, tinyFlags k.inexact)
  else if E ≤ f.tOvf - 1 then
    let k := rne m f.drop
    let t := ((E - f.rebias) <<< 10) + k.q
    if t = 0x7C00 then (S ||| 0x7C00, overflowFlags) else (S ||| t, inexactFlags k.inexact)
  else (S ||| 0x7C00, overflowFlags)

theorem nanMantissa_eq_ite (cfg : Config) (f : Format) (x : Fields) :
    nanMantissa cfg f x = if cfg.nanPolicy = .canonical then cfg.canonicalNanMant.toNat
      else if x.man >>> f.drop = 0 then 1 else x.man >>> f.drop := by
  cases h : cfg.nanPolicy <;> simp [nanMantissa, h]

/-- The pseudocode asks in another order than R81, and gives in each class what R84 to R90 give. -/
theorem writtenNarrow_eq_narrow {f : Format} (hpos : 0 < f.tSub) (cfg : Config) (p : Nat) :
    writtenNarrow cfg f p = ((narrow cfg f p).r, (narrow cfg f p).flags) := by
  obtain ⟨hnorm, hovf, -⟩ := f.thresholds_le
  have hle : ∀ {e}, f.tSub ≤ e → ((f.split p).exp ≤ e - 1 ↔ (f.split p).exp < e) := fun he =>
    Nat.le_sub_one_iff_lt (hpos.trans_le he)
  simp only [writtenNarrow, hle le_rfl, hle hnorm, hle (hnorm.trans hovf)]
  rcases narrowClass_cases f (f.split p) with ⟨c, h, he⟩ | ⟨c, h, he, he'⟩ | ⟨c, h, he, he'⟩ | ⟨c, h, he⟩ |
      ⟨c, h, hm⟩ | ⟨c, h, hm⟩
  · simp [narrow_zero c, narrowZero, halfOf, h, he, tinyFlags]
  · simp [narrow_subnormal c, narrowSubnormal, halfOf, h, he', Nat.sub_add_comm he'.le, not_lt.2 he]
  · simp only [narrow_normal c, narrowNormal, halfOf, h, he', not_lt.2 he, not_lt.2 (hnorm.trans he), false_and,
      if_false, if_true]
    split <;> rfl
  · simp [narrow_overflow c, narrowOverflow, halfOf, h, not_lt.2 he, not_lt.2 (hovf.trans he),
      not_lt.2 (hnorm.trans (hovf.trans he))]
  · simp [narrow_inf c, narrowInf, halfOf, h, hm]
  · simp [narrow_nan c, narrowNan, halfOf, h, hm, Nat.or_assoc, nanMantissa_eq_ite]

theorem extractLsb'_zero_ne_iff {n k : Nat} (w : BitVec n) : w.extractLsb' 0 k ≠ 0#k ↔ w.toNat % 2 ^ k ≠ 0 := by
  rw [Ne, ← BitVec.toNat_inj, BitVec.extractLsb'_toNat]
  simp

/-- R91 is the common pseudocode with binary32's constants. -/
theorem written_f32tof16_eq (cfg : Config) (w : Single) :
    Written.f32tof16 cfg w = writtenNarrow cfg .binary32 w.toNat := by
  simp only [Written.f32tof16, extractLsb'_zero_ne_iff, BitVec.extractLsb'_toNat]
  rfl

/-- R92 is the common pseudocode with binary64's constants. -/
theorem written_f64tof16_eq (cfg : Config) (w : Double) :
    Written.f64tof16 cfg w = writtenNarrow cfg .binary64 w.toNat := by
  simp only [Written.f64tof16, extractLsb'_zero_ne_iff, BitVec.extractLsb'_toNat]
  rfl

end Machine
end Sys2Proof
end
section
/-! SUPPORT. The sign, the infinity and the row of each class in what a narrowing leaves on the ports
(spec/41_narrowing.md R82, R89, R96). -/

namespace Sys2Proof.Machine

/-! ## The sign (R82) -/

/-- Bit 15 of a half pattern on `y` is its sign field. -/
theorem toNat_extractLsb'_sign {r : Nat} (hr : r < 2 ^ 16) :
    ((BitVec.ofNat 64 r).extractLsb' 15 1).toNat = (Format.binary16.split r).sign := by
  rw [BitVec.extractLsb'_toNat, BitVec.toNat_ofNat, Nat.mod_eq_of_lt (hr.trans (by decide))]
  rfl

/-- A narrowing copies the operand's sign bit to bit 15 of `y`. -/
theorem exec_narrow_copies_sign {i : Instr} {f : Format} {p : Nat} (hi : Written.narrowOperand i = some (f, p))
    (s : State) {sign : BitVec 1} (hsign : sign.toNat = (f.split p).sign) :
    ∃ q, exec i s = .next { s with rsp := some q } ∧ q.y.extractLsb' 15 1 = sign := by
  refine ⟨_, exec_of_narrowOperand hi s, BitVec.eq_of_toNat_eq ?_⟩
  rw [toNat_extractLsb'_sign (narrow_r_lt s.cfg f p), split_narrow_sign, hsign]

/-! ## The infinities (R89) -/

/-- Sign, exponent field and mantissa field side by side are the pattern of these fields. -/
theorem toNat_append_fields {n k : Nat} (sign : BitVec 1) (e : BitVec n) (m : BitVec k) :
    (sign ++ e ++ m).toNat = sign.toNat <<< (n + k) ||| e.toNat <<< k ||| m.toNat := by
  rw [BitVec.toNat_append, BitVec.toNat_append, Nat.shiftLeft_or_distrib, ← Nat.shiftLeft_add]

/-- A sign over the infinity's magnitude, as a half pattern on `y`. -/
theorem ofNat_halfOf_infinity (sign : BitVec 1) :
    BitVec.ofNat 64 (halfOf sign.toNat 0x7C00) = (sign ++ 0x7C00#15 : BitVec 16).setWidth 64 := by
  have h : halfOf sign.toNat 0x7C00 = (sign ++ 0x7C00#15 : BitVec 16).toNat := by
    rw [BitVec.toNat_append]; rfl
  rw [h, BitVec.ofNat_toNat]

/-- The infinity of either sign narrows to the half infinity of that sign, and nothing is raised. -/
theorem exec_narrow_infinity {i : Instr} {f : Format} (sign : BitVec 1) (s : State)
    (hi : Written.narrowOperand i = some (f, f.join { sign := sign.toNat, exp := f.emax, man := 0 })) :
    exec i s = .next { s with rsp := some {
      flags := noFlags, y := (sign ++ 0x7C00#15 : BitVec 16).setWidth 64 } } := by
  have hsplit := f.split_join (x := { sign := sign.toNat, exp := f.emax, man := 0 }) sign.isLt f.emax_lt (by positivity)
  have hclass := (narrowClass_eq_inf_iff f _).2 ⟨congrArg Fields.exp hsplit, congrArg Fields.man hsplit⟩
  rw [exec_of_narrowOperand hi, narrow_inf hclass, hsplit, ← ofNat_halfOf_infinity]
  rfl

/-! ## The sets of conditions (R95) -/

theorem legalFlags_iff (flags : FlagSet) :
    legalFlags flags = true ↔ flags = 0b0000#4 ∨ flags = 0b0001#4 ∨ flags = 0b0011#4 ∨ flags = 0b0101#4 := by
  simp [legalFlags, or_assoc]

theorem tinyFlags_mem (b : Bool) : tinyFlags b = noFlags ∨ tinyFlags b = flagUF ||| flagNX := by
  cases b
  · exact .inl rfl
  · exact .inr rfl

theorem inexactFlags_mem (b : Bool) : inexactFlags b = noFlags ∨ inexactFlags b = flagNX := by
  cases b
  · exact .inl rfl
  · exact .inr rfl

/-! ## The row of each class (R96) -/

/-- Class `SUBNORMAL` reaches the ends of its range, zero and the smallest normal, only by discarding bits: an exact
quotient would need a significand outside the binade of the leading bit. -/
theorem narrowSubnormal_inexact_of_end {f : Format} {x : Fields} (hm : x.man < 2 ^ f.manWidth) (he : x.exp < f.tNorm)
    (hq : (rne (2 ^ f.manWidth ||| x.man) (f.tNorm - x.exp + f.drop)).q = 0 ∨
      (rne (2 ^ f.manWidth ||| x.man) (f.tNorm - x.exp + f.drop)).q = 2 ^ 10) :
    (rne (2 ^ f.manWidth ||| x.man) (f.tNorm - x.exp + f.drop)).inexact = true := by
  by_contra hexact
  have hv := (rne_inexact_eq_false_iff (by omega)).1 (Bool.eq_false_of_not_eq_true hexact)
  have hlow : 2 ^ f.manWidth ≤ 2 ^ f.manWidth ||| x.man := Nat.left_le_or
  have hhigh : 2 ^ f.manWidth ||| x.man < 2 ^ (f.manWidth + 1) :=
    Nat.or_lt_two_pow (Nat.pow_lt_pow_right (by decide) (by omega)) (by omega)
  have hdrop := f.drop_add_ten
  rcases hq with h | h
  · rw [h, Nat.zero_mul] at hv
    have := Nat.two_pow_pos f.manWidth
    omega
  · rw [h, ← pow_add] at hv
    have : 2 ^ (f.manWidth + 1) ≤ 2 ^ (10 + (f.tNorm - x.exp + f.drop)) := Nat.pow_le_pow_right (by decide) (by omega)
    omega

theorem narrow_zero_row (cfg : Config) {f : Format} {p : Nat} (c : narrowClass f (f.split p) = .zero) :
    Format.binary16.magnitude (narrow cfg f p).r = 0 ∧
      ((narrow cfg f p).flags = noFlags ∨ (narrow cfg f p).flags = flagUF ||| flagNX) := by
  rw [narrow_zero c]
  exact ⟨magnitude_halfOf (by decide), tinyFlags_mem _⟩

theorem narrow_subnormal_row (cfg : Config) {f : Format} {p : Nat} (c : narrowClass f (f.split p) = .subnormal) :
    Format.binary16.magnitude (narrow cfg f p).r ≤ 0x0400 ∧
      ((narrow cfg f p).flags = noFlags ∨ (narrow cfg f p).flags = flagUF ||| flagNX) ∧
      (Format.binary16.magnitude (narrow cfg f p).r = 0 ∨ Format.binary16.magnitude (narrow cfg f p).r = 0x0400 →
        (narrow cfg f p).flags = flagUF ||| flagNX) := by
  obtain ⟨-, he⟩ := (narrowClass_eq_subnormal_iff f _).1 c
  have hq := narrowSubnormal_q_le (f.split_man_lt p) he
  rw [narrow_subnormal c, narrowSubnormal, magnitude_halfOf (hq.trans_lt (by decide))]
  refine ⟨hq, tinyFlags_mem _, fun hend => ?_⟩
  rw [narrowSubnormal_inexact_of_end (f.split_man_lt p) he hend]
  rfl

theorem narrow_normal_row (cfg : Config) {f : Format} {p : Nat} (c : narrowClass f (f.split p) = .normal) :
    0x0400 ≤ Format.binary16.magnitude (narrow cfg f p).r ∧ Format.binary16.magnitude (narrow cfg f p).r ≤ 0x7C00 ∧
      (Format.binary16.magnitude (narrow cfg f p).r < 0x7C00 →
        (narrow cfg f p).flags = noFlags ∨ (narrow cfg f p).flags = flagNX) ∧
      (Format.binary16.magnitude (narrow cfg f p).r = 0x7C00 → (narrow cfg f p).flags = overflowFlags) := by
  obtain ⟨he, he'⟩ := (narrowClass_eq_normal_iff f _).1 c
  have hq := narrowNormal_q_le (f.split_man_lt p)
  have hlast := narrowNormal_exp_le he'
  have hfirst : f.rebias < f.tNorm := by cases f <;> decide
  rw [narrow_normal c, narrowNormal]
  split
  case isTrue h =>
    rw [magnitude_halfOf (by decide)]
    exact ⟨by decide, le_rfl, fun hlt => absurd hlt (lt_irrefl _), fun _ => rfl⟩
  case isFalse h =>
    rw [Nat.shiftLeft_eq] at h ⊢
    rw [magnitude_halfOf (by omega)]
    exact ⟨by omega, by omega, fun _ => inexactFlags_mem _, fun heq => absurd heq h⟩

theorem narrow_overflow_row (cfg : Config) {f : Format} {p : Nat} (c : narrowClass f (f.split p) = .overflow) :
    Format.binary16.magnitude (narrow cfg f p).r = 0x7C00 ∧ (narrow cfg f p).flags = overflowFlags := by
  rw [narrow_overflow c]
  exact ⟨magnitude_halfOf (by decide), rfl⟩

theorem narrow_inf_row (cfg : Config) {f : Format} {p : Nat} (c : narrowClass f (f.split p) = .inf) :
    Format.binary16.magnitude (narrow cfg f p).r = 0x7C00 ∧ (narrow cfg f p).flags = noFlags := by
  rw [narrow_inf c]
  exact ⟨magnitude_halfOf (by decide), rfl⟩

theorem narrow_nan_row {cfg : Config} (hcfg : cfg.wf = true) {f : Format} {p : Nat}
    (c : narrowClass f (f.split p) = .nan) :
    0x7C01 ≤ Format.binary16.magnitude (narrow cfg f p).r ∧ (narrow cfg f p).flags = noFlags := by
  have hpos := nanMantissa_ne_zero hcfg f (f.split p)
  have hlt := nanMantissa_lt cfg f p
  have hor : 0x7C00 ||| nanMantissa cfg f (f.split p) = 0x7C00 + nanMantissa cfg f (f.split p) :=
    (Nat.two_pow_add_eq_or_of_lt hlt 31).symm
  rw [narrow_nan c, narrowNan, hor, magnitude_halfOf (by omega)]
  exact ⟨by omega, rfl⟩

end Sys2Proof.Machine
end

section
/-! Narrowing: the rule's pseudocode, the classes, and what each can produce. -/

namespace Sys2Proof.Proofs

open Sys2Proof.Machine

/-- Settles O22: R91 is the common pseudocode with binary32's constants, which class by class is what a narrowing gives;
the operand is the low half of `a`. -/
theorem f32ToF16IsTheWrittenRule : Obligations.F32ToF16IsTheWrittenRule := by
  intro w s
  refine ⟨?_, fun _ _ => congrArg Instr.f32tof16 BitVec.extractLsb'_append_eq_right⟩
  rw [written_f32tof16_eq, writtenNarrow_eq_narrow (by decide)]
  exact exec_of_narrowOperand rfl s

/-- Settles O23: R92 is the common pseudocode with binary64's constants, which class by class is what a narrowing
gives. -/
theorem f64ToF16IsTheWrittenRule : Obligations.F64ToF16IsTheWrittenRule := by
  intro d s
  refine ⟨?_, fun _ => rfl⟩
  rw [written_f64tof16_eq, writtenNarrow_eq_narrow (by decide)]
  exact exec_of_narrowOperand rfl s

/-- Settles O24: a threshold on the exponent field is one on the magnitude, whose low part is the mantissa field. -/
theorem narrowingClassesAsPatternRanges : Obligations.NarrowingClassesAsPatternRanges :=
  ⟨fun p _ => narrowClass_iff_magnitude (f := .binary32) (by decide) p,
    fun p _ => narrowClass_iff_magnitude (f := .binary64) (by decide) p⟩

/-- Settles O25: the half's sign field is the operand's in every class, and is read from the ports at its bit. -/
theorem narrowingCopiesTheSign : Obligations.NarrowingCopiesTheSign :=
  ⟨fun w s => exec_narrow_copies_sign (i := .f32tof16 w) rfl s (BitVec.extractLsb'_toNat ..),
    fun d s => exec_narrow_copies_sign (i := .f64tof16 d) rfl s (BitVec.extractLsb'_toNat ..)⟩

/-- Settles O26: the three fields side by side are the infinity's pattern, which is in class `INF`. -/
theorem infinityNarrowsToInfinity : Obligations.InfinityNarrowsToInfinity :=
  ⟨fun sign s => exec_narrow_infinity (f := .binary32) sign s (by rw [Written.narrowOperand, toNat_append_fields]; rfl),
    fun sign s => exec_narrow_infinity (f := .binary64) sign s (by rw [Written.narrowOperand, toNat_append_fields]; rfl)⟩

/-- Settles O28: the row of each class. -/
theorem resultsOfEachNarrowingClass : Obligations.ResultsOfEachNarrowingClass := by
  intro i f p s hi hcfg
  refine ⟨_, _, narrow_r_lt s.cfg f p, exec_of_narrowOperand hi s, ?_⟩
  cases c : narrowClass f (f.split p) with
  | zero => exact narrow_zero_row s.cfg c
  | subnormal => exact narrow_subnormal_row s.cfg c
  | normal => exact narrow_normal_row s.cfg c
  | overflow => exact narrow_overflow_row s.cfg c
  | inf => exact narrow_inf_row s.cfg c
  | nan => exact narrow_nan_row hcfg c

/-- Settles O35: the two operands evaluated, whatever the parameters are. -/
theorem f64ToF16DoesNotRoundTwice : Obligations.F64ToF16DoesNotRoundTwice := fun _ => ⟨rfl, rfl⟩

/-- Settles O29: every narrowing raises a set of R95, and each set has an operand of either width: a zero, the pair of R93's
witness, the smallest subnormal, and the first pattern of class `OVERFLOW`. -/
theorem fourSetsOfConditions : Obligations.FourSetsOfConditions := by
  refine ⟨fun i f p s hi => ⟨_, exec_of_narrowOperand hi s, (legalFlags_iff _).1 (legalFlags_narrow s.cfg f p)⟩,
    fun flags s hlegal => ?_⟩
  rcases (legalFlags_iff flags).1 hlegal with rfl | rfl | rfl | rfl
  · exact ⟨⟨0#32, 0#64, rfl⟩, 0#64, 0#64, rfl⟩
  · obtain ⟨h64, h32⟩ := f64ToF16DoesNotRoundTwice s
    exact ⟨⟨_, _, h32⟩, _, _, h64⟩
  · exact ⟨⟨1#32, 0#64, rfl⟩, 1#64, 0#64, rfl⟩
  · exact ⟨⟨0x47800000#32, 0x7C00#64, rfl⟩, 0x40F0000000000000#64, 0x7C00#64, rfl⟩

end Sys2Proof.Proofs
end

section
/-! SUPPORT. A widened half narrowed again, and the widening rules' pseudocode (spec/42_widening.md R118 to R121). -/

namespace Sys2Proof

/-- A half with the all-ones exponent field, by its magnitude. -/
theorem magnitude_binary16_of_exp_emax {h : Nat} (hexp : (Format.binary16.split h).exp = Format.binary16.emax) :
    Format.binary16.magnitude h = 0x7C00 ||| (Format.binary16.split h).man := by
  rw [Format.magnitude_eq, hexp]
  exact Nat.two_pow_add_eq_or_of_lt (Format.binary16.split_man_lt h) 31

namespace Machine

/-- A half is its sign over its magnitude. -/
theorem halfOf_sign_magnitude {h : Nat} (hh : h < 2 ^ 16) :
    halfOf (Format.binary16.split h).sign (Format.binary16.magnitude h) = h := by
  have hsign : (Format.binary16.split h).sign = h / 2 ^ 15 % 2 := by
    rw [Format.split, Format.width_binary16, Nat.shiftRight_eq_div_pow]
  have hmag : Format.binary16.magnitude h = h % 2 ^ 15 := rfl
  rw [halfOf_eq_add _ _ (hmag ▸ Nat.mod_lt _ (by decide)), hsign, hmag]
  omega

/-! ## Narrowing what a half widened to -/

/-- No finite half is nearer to the widened half than the half itself, which has its value. -/
theorem val_narrow_widen {f : Format} (hf : f ≠ .binary16) (cfg : Config) {h : Nat}
    (hfin : Format.binary16.isFinite h = true) :
    Format.binary16.val (narrow cfg f (widen f h)).r = Format.binary16.val h := by
  by_contra hne
  have hnear := narrow_nearest hf cfg ((isFinite_widen_iff hf h).2 hfin) hfin (Ne.symm hne)
  rw [val_widen hf hfin, sub_self, abs_zero] at hnear
  rcases hnear with hlt | ⟨hzero, -⟩
  · exact absurd hlt (not_lt.2 (abs_nonneg _))
  · exact hne (sub_eq_zero.1 (abs_eq_zero.1 hzero))

theorem narrow_widen_r_of_isFinite {f : Format} (hf : f ≠ .binary16) (cfg : Config) {h : Nat} (hh : h < 2 ^ 16)
    (hfin : Format.binary16.isFinite h = true) : (narrow cfg f (widen f h)).r = h := by
  have hmag : Format.binary16.magnitude (narrow cfg f (widen f h)).r = Format.binary16.magnitude h := by
    refine val_binary16_strictMonoOn.injOn (magnitude_narrow_le hf cfg ((isFinite_widen_iff hf h).2 hfin))
      ((isFinite_binary16_iff h).1 hfin).le ?_
    rw [Format.val_magnitude, Format.val_magnitude, val_narrow_widen hf cfg hfin]
  rw [← halfOf_sign_magnitude (narrow_r_lt cfg f _), split_narrow_sign, hmag, split_widen hf]
  exact halfOf_sign_magnitude hh

theorem narrow_widen_r_of_infinity {f : Format} (hf : f ≠ .binary16) (cfg : Config) {h : Nat} (hh : h < 2 ^ 16)
    (c : Format.binary16.classify h = .infinity) : (narrow cfg f (widen f h)).r = h := by
  have hwide : f.classify (widen f h) = .infinity := by rw [classify_widen hf, c]; rfl
  obtain ⟨hexp, hman⟩ := (Format.classOf_eq_infinity_iff _ _).1 c
  have hmag : Format.binary16.magnitude h = 0x7C00 := by
    rw [magnitude_binary16_of_exp_emax hexp, hman, Nat.or_zero]
  rw [narrow_inf ((narrowClass_eq_inf_iff f _).2 ((f.classOf_eq_infinity_iff _).1 hwide)), narrowInf, split_widen hf,
    ← hmag]
  exact halfOf_sign_magnitude hh

/-- A widened NaN narrows to a NaN of its sign, whose mantissa is the policy's choice. -/
theorem narrow_widen_r_of_nan {f : Format} (hf : f ≠ .binary16) (cfg : Config) {h : Nat}
    (c : Format.binary16.classify h = .nan) :
    (narrow cfg f (widen f h)).r =
      halfOf (Format.binary16.split h).sign (0x7C00 ||| nanMantissa cfg f (f.split (widen f h))) := by
  have hwide : f.classify (widen f h) = .nan := by rw [classify_widen hf, c]; rfl
  rw [narrow_nan (narrowClass_of_classify_nan hwide), narrowNan, split_widen hf]

/-- Under `PRESERVE` the ten payload bits come back, and as they are not all zero none is forced. -/
theorem nanMantissa_widen {f : Format} (hf : f ≠ .binary16) {cfg : Config} (hpol : cfg.nanPolicy = .preserve) {h : Nat}
    (c : Format.binary16.classify h = .nan) :
    nanMantissa cfg f (f.split (widen f h)) = (Format.binary16.split h).man := by
  obtain ⟨-, hman⟩ := (Format.classOf_eq_nan_iff _ _).1 c
  have hnotsub : Format.binary16.classOf (Format.binary16.split h) ≠ .subnormal := by
    rw [← Format.classify, c]; decide
  rw [nanMantissa_preserve hpol, split_widen hf, widenMan, if_neg hnotsub, Nat.shiftLeft_eq,
    Nat.mul_div_cancel _ (Nat.two_pow_pos _), if_neg hman]

theorem narrow_widen_r_of_nan_preserve {f : Format} (hf : f ≠ .binary16) {cfg : Config}
    (hpol : cfg.nanPolicy = .preserve) {h : Nat} (hh : h < 2 ^ 16) (c : Format.binary16.classify h = .nan) :
    (narrow cfg f (widen f h)).r = h := by
  rw [narrow_widen_r_of_nan hf cfg c, nanMantissa_widen hf hpol c,
    ← magnitude_binary16_of_exp_emax ((Format.classOf_eq_nan_iff _ _).1 c).1]
  exact halfOf_sign_magnitude hh

/-- Any half but a NaN under `CANONICAL` comes back as it was. -/
theorem narrow_widen_r {f : Format} (hf : f ≠ .binary16) {cfg : Config} {h : Nat} (hh : h < 2 ^ 16)
    (hkept : ¬ (cfg.nanPolicy = .canonical ∧ Format.binary16.classify h = .nan)) :
    (narrow cfg f (widen f h)).r = h := by
  by_cases hfin : Format.binary16.isFinite h = true
  · exact narrow_widen_r_of_isFinite hf cfg hh hfin
  have hclass : Format.binary16.classify h = .infinity ∨ Format.binary16.classify h = .nan := by
    by_contra hne
    exact hfin ((Format.isFinite_iff_classify _ _).2 (not_or.1 hne))
  rcases hclass with c | c
  · exact narrow_widen_r_of_infinity hf cfg hh c
  · cases hpol : cfg.nanPolicy with
    | preserve => exact narrow_widen_r_of_nan_preserve hf hpol hh c
    | canonical => exact absurd ⟨hpol, c⟩ hkept

/-- Of the sets of R95 only the empty one is without `NX`. -/
theorem eq_noFlags_of_legalFlags :
    ∀ {flags : FlagSet}, legalFlags flags = true → flags.getLsbD 0 = false → flags = noFlags := by decide

/-- Nothing is raised on the way back: a finite half keeps its value, so there is no `NX`. -/
theorem narrow_widen_flags {f : Format} (hf : f ≠ .binary16) (cfg : Config) {h : Nat} (hh : h < 2 ^ 16) :
    (narrow cfg f (widen f h)).flags = noFlags := by
  by_cases hfin : Format.binary16.isFinite h = true
  · refine eq_noFlags_of_legalFlags (legalFlags_narrow cfg f _) (Bool.eq_false_of_not_eq_true ?_)
    rw [narrow_flags_NX_iff hf cfg ((isFinite_widen_iff hf h).2 hfin), not_not, val_widen hf hfin,
      narrow_widen_r_of_isFinite hf cfg hh hfin]
    exact ⟨hfin, rfl⟩
  · exact narrow_flags_of_not_finite cfg (Bool.eq_false_of_not_eq_true (mt (isFinite_widen_iff hf h).1 hfin))

/-- Distinct halves widen to distinct patterns: under `PRESERVE` narrowing undoes it. -/
theorem widen_injOn {f : Format} (hf : f ≠ .binary16) : Set.InjOn (widen f) (Set.Iio (2 ^ 16)) := by
  refine Set.LeftInvOn.injOn (f₁' := fun p => (narrow Config.default f p).r) fun h hh => ?_
  exact narrow_widen_r hf hh fun ⟨hpol, _⟩ => absurd hpol (by decide)

/-! ## The round trip on the ports (R121) -/

/-- The sign field of a half is its bit 15 under the mask. -/
theorem and_sign_mask (h : Nat) : h &&& 0x8000 = (Format.binary16.split h).sign <<< 15 := by
  rw [show 0x8000 = 2 ^ 15 from rfl, Nat.and_two_pow, Nat.toNat_testBit, Nat.shiftLeft_eq, Format.split,
    Nat.shiftRight_eq_div_pow, Format.width_binary16]

/-- The half that comes back from a round trip (R121). -/
def roundTripHalf (cfg : Config) (x : Half) : Half :=
  if cfg.nanPolicy = .canonical ∧ Format.binary16.classify x.toNat = .nan
  then (x &&& 0x8000#16) ||| 0x7C00#16 ||| cfg.canonicalNanMant.setWidth 16 else x

theorem narrow_widen_r_eq_roundTripHalf {f : Format} (hf : f ≠ .binary16) (cfg : Config) (x : Half) :
    (narrow cfg f (widen f x.toNat)).r = (roundTripHalf cfg x).toNat := by
  rw [roundTripHalf]
  split_ifs with hnan
  · obtain ⟨hpol, c⟩ := hnan
    rw [narrow_widen_r_of_nan hf cfg c, nanMantissa_canonical hpol, halfOf, ← and_sign_mask, ← Nat.or_assoc,
      BitVec.toNat_or, BitVec.toNat_or, BitVec.toNat_and, BitVec.toNat_setWidth_of_le (by decide)]
    rfl
  · exact narrow_widen_r hf x.isLt hnan

/-- Narrowing a widened half leaves the half that comes back on `y`, and raises nothing. -/
theorem exec_narrow_widen {i : Instr} {f : Format} {x : Half}
    (hi : Written.narrowOperand i = some (f, widen f x.toNat)) (s : State) :
    exec i s = .next { s with rsp := some { flags := 0b0000#4, y := (roundTripHalf s.cfg x).setWidth 64 } } := by
  have hf := ne_binary16_of_narrowOperand hi
  rw [exec_of_narrowOperand hi, narrow_widen_flags hf _ x.isLt, narrow_widen_r_eq_roundTripHalf hf, BitVec.ofNat_toNat]
  rfl

/-- A pattern no wider than its port is read back from it. -/
theorem toNat_extractLsb'_ofNat {r n : Nat} (hn : n ≤ 64) (hr : r < 2 ^ n) :
    ((BitVec.ofNat 64 r).extractLsb' 0 n).toNat = r := by
  rw [BitVec.extractLsb'_toNat, Nat.shiftRight_zero, BitVec.toNat_ofNat,
    Nat.mod_eq_of_lt (hr.trans_le (Nat.pow_le_pow_right (by decide) hn)), Nat.mod_eq_of_lt hr]

/-! ## Injectivity on the ports (R120) -/

theorem half_eq_of_exec_widen_eq {i j : Instr} {f : Format} {h h' : Half}
    (hi : Written.widenOperand i = some (f, h)) (hj : Written.widenOperand j = some (f, h')) {s : State}
    (heq : exec i s = exec j s) : h = h' := by
  have hwidth : f.width ≤ 64 := by cases f <;> decide
  have hlt : ∀ g : Half, widen f g.toNat < 2 ^ 64 := fun g =>
    (widen_lt f _).trans_le (Nat.pow_le_pow_right (by decide) hwidth)
  rw [exec_of_widenOperand hi, exec_of_widenOperand hj] at heq
  have hport : BitVec.ofNat 64 (widen f h.toNat) = BitVec.ofNat 64 (widen f h'.toNat) := by injections
  have hy := congrArg BitVec.toNat hport
  rw [BitVec.toNat_ofNat, BitVec.toNat_ofNat, Nat.mod_eq_of_lt (hlt h), Nat.mod_eq_of_lt (hlt h')] at hy
  exact BitVec.eq_of_toNat_eq (widen_injOn (ne_binary16_of_widenOperand hi) h.isLt h'.isLt hy)

/-! ## The rule's pseudocode for a Format Descriptor (R118, R119) -/

/-- What R118 and R119 have in common: their pseudocode with the constants taken from the Format Descriptor. -/
def writtenWiden (f : Format) (h : Nat) : Nat :=
  let e := (Format.binary16.split h).exp
  let m := (Format.binary16.split h).man
  let SW := (Format.binary16.split h).sign <<< (f.width - 1)
  if e = 0 ∧ m = 0 then SW
  else if e = 0 then
    let k := msb m
    let frac := (m <<< (10 - k)) &&& 0x3FF
    SW ||| ((f.subBase + k) <<< f.manWidth) ||| (frac <<< f.drop)
  else if e = 31 ∧ m = 0 then SW ||| (f.emax <<< f.manWidth)
  else if e = 31 then SW ||| (f.emax <<< f.manWidth) ||| (m <<< f.drop)
  else SW ||| ((e + f.rebias) <<< f.manWidth) ||| (m <<< f.drop)

/-- The pseudocode's five cases are the classes of R62, in their order, and each puts together the fields of R113 to
R117. -/
theorem writtenWiden_eq_widen (f : Format) (h : Nat) : writtenWiden f h = widen f h := by
  cases c : Format.binary16.classify h with
  | zero =>
    obtain ⟨hexp, hman⟩ := (Format.classOf_eq_zero_iff _ _).1 c
    simp [widen_zero c, widenZero, Format.join, writtenWiden, hexp, hman]
  | subnormal =>
    obtain ⟨hexp, hman⟩ := (Format.classOf_eq_subnormal_iff _ _).1 c
    simp [widen_subnormal c, widenSubnormal, Format.join, writtenWiden, hexp, hman]
  | normal =>
    obtain ⟨hzero, hmax⟩ := (Format.classOf_eq_normal_iff _ _).1 c
    rw [Format.emax_binary16] at hmax
    simp [widen_normal c, widenNormal, Format.join, writtenWiden, hzero, hmax]
  | infinity =>
    obtain ⟨hexp, hman⟩ := (Format.classOf_eq_infinity_iff _ _).1 c
    simp [widen_inf c, widenInf, Format.join, writtenWiden, hexp, hman]
  | nan =>
    obtain ⟨hexp, hman⟩ := (Format.classOf_eq_nan_iff _ _).1 c
    simp [widen_nan c, widenNan, Format.join, writtenWiden, hexp, hman]

/-- R118 is the common pseudocode with binary32's constants. -/
theorem written_f16tof32_eq (h : Half) : Written.f16tof32 h = writtenWiden .binary32 h.toNat := by
  simp only [Written.f16tof32, BitVec.extractLsb'_toNat]
  rfl

/-- R119 is the common pseudocode with binary64's constants. -/
theorem written_f16tof64_eq (h : Half) : Written.f16tof64 h = writtenWiden .binary64 h.toNat := by
  simp only [Written.f16tof64, BitVec.extractLsb'_toNat]
  rfl

end Machine
end Sys2Proof
end

section
/-! Widening: the rule's pseudocode, the round trip, and injectivity. -/

namespace Sys2Proof.Proofs

open Sys2Proof.Machine

/-- Settles O40: a finite half is nearest to its own widening, which raises no `NX`; the infinities and the NaNs come
back by their fields, a NaN with the mantissa of the policy. -/
theorem widenThenNarrowRoundTrips : Obligations.WidenThenNarrowRoundTrips := fun x s =>
  ⟨⟨_, exec_of_widenOperand rfl s, exec_narrow_widen (f := .binary32) (x := x)
      (by rw [Written.narrowOperand, toNat_extractLsb'_ofNat (n := 32) (by decide) (widen_lt .binary32 _)]) s⟩,
    _, exec_of_widenOperand rfl s, exec_narrow_widen (f := .binary64) (x := x)
      (by rw [Written.narrowOperand, BitVec.toNat_ofNat, Nat.mod_eq_of_lt (b := 2 ^ 64) (widen_lt .binary64 _)]) s⟩

/-- Settles O36: R118 is the common pseudocode with binary32's constants, which class by class is what a widening gives;
the operand is the low part of `a`. -/
theorem f16ToF32IsTheWrittenRule : Obligations.F16ToF32IsTheWrittenRule := by
  intro h s
  rw [written_f16tof32_eq, writtenWiden_eq_widen]
  exact ⟨exec_of_widenOperand rfl s, widen_lt .binary32 _,
    fun _ _ => congrArg Instr.f16tof32 BitVec.extractLsb'_append_eq_right⟩

/-- Settles O37: R119 is the common pseudocode with binary64's constants, which class by class is what a widening gives;
the operand is the low part of `a`. -/
theorem f16ToF64IsTheWrittenRule : Obligations.F16ToF64IsTheWrittenRule := by
  intro h s
  rw [written_f16tof64_eq, writtenWiden_eq_widen]
  exact ⟨exec_of_widenOperand rfl s, widen_lt .binary64 _,
    fun _ _ => congrArg Instr.f16tof64 BitVec.extractLsb'_append_eq_right⟩

/-- Settles O39: under `PRESERVE` narrowing gives every half back from its widening, so no two halves share one. -/
theorem wideningIsInjective : Obligations.WideningIsInjective := fun _ _ _ =>
  ⟨half_eq_of_exec_widen_eq rfl rfl, half_eq_of_exec_widen_eq rfl rfl⟩

end Sys2Proof.Proofs
end

section
/-! SUPPORT. The sign operations on a half as its sign bit over its 15 magnitude bits, the operands on their ports, and
the sign of a widened half (spec/43_sign_ops.md R130 to R135). -/

namespace Sys2Proof

/-! ## Operands on a port (spec/30_encoding.md R44): what stands beside them is not read -/

theorem halfOperand_append (a : BitVec 48) (x : Half) : halfOperand (a ++ x : BitVec 64) = x :=
  BitVec.extractLsb'_append_eq_right

/-- A half carried to the second port is there as it was. -/
theorem setWidth_setWidth_half (x : Half) : (x.setWidth 64).setWidth 16 = x := by
  rw [BitVec.setWidth_setWidth_of_le x (by decide), BitVec.setWidth_eq]

namespace Machine

/-! ## The pattern functions on sign and magnitude -/

/-- A half pattern is its sign bit over its magnitude bits. -/
theorem exists_half_eq_append (x : Half) : ∃ (g : BitVec 1) (m : BitVec 15), x = g ++ m :=
  ⟨x.extractLsb' 15 1, x.extractLsb' 0 15, (BitVec.extractLsb'_append_extractLsb' (w := 1) (len := 15)).symm⟩

@[simp] theorem signOfHalf_append (g : BitVec 1) (m : BitVec 15) : signOfHalf (g ++ m) = g :=
  BitVec.extractLsb'_append_eq_left

/-- Of `COPYSIGN`'s second operand the sign bit alone is read (R134). -/
@[simp] theorem signSource_eq_signOfHalf (x : Half) : signSource x = signOfHalf x := rfl

@[simp] theorem negHalf_append (g : BitVec 1) (m : BitVec 15) : negHalf (g ++ m) = ~~~g ++ m :=
  calc negHalf (g ++ m)
    _ = (g ++ m : Half) ^^^ (BitVec.allOnes 1 ++ 0#15) := rfl
    _ = ~~~g ++ m := by rw [BitVec.xor_append, BitVec.xor_allOnes, BitVec.xor_zero]

/-- The mask of the magnitude bits clears the sign bit. -/
theorem append_and_magnitudeMask (g : BitVec 1) (m : BitVec 15) : (g ++ m : Half) &&& 0x7FFF#16 = 0#1 ++ m :=
  calc (g ++ m : Half) &&& 0x7FFF#16
    _ = (g ++ m : Half) &&& (0#1 ++ BitVec.allOnes 15) := rfl
    _ = 0#1 ++ m := by rw [BitVec.and_append, BitVec.and_zero, BitVec.and_allOnes]

@[simp] theorem absHalf_append (g : BitVec 1) (m : BitVec 15) : absHalf (g ++ m) = 0#1 ++ m :=
  append_and_magnitudeMask g m

@[simp] theorem copysignHalf_append (g k : BitVec 1) (m : BitVec 15) : copysignHalf (g ++ m) k = k ++ m := by
  rw [copysignHalf, append_and_magnitudeMask, BitVec.or_append, BitVec.or_zero, BitVec.zero_or]

@[simp] theorem negHalf_negHalf (x : Half) : negHalf (negHalf x) = x := by
  obtain ⟨g, m, rfl⟩ := exists_half_eq_append x
  rw [negHalf_append, negHalf_append, BitVec.not_not]

/-- A pattern with its own sign is the pattern. -/
theorem copysignHalf_signOfHalf (x : Half) : copysignHalf x (signOfHalf x) = x := by
  obtain ⟨g, m, rfl⟩ := exists_half_eq_append x
  rw [signOfHalf_append, copysignHalf_append]

/-- `SIGNBIT`'s bit on `y`, under 63 zeros (R133, decision D18). -/
theorem setWidth_sign_eq_append (g : BitVec 1) : g.setWidth 64 = (0#63 ++ g : BitVec 64) :=
  BitVec.setWidth_eq_append (by decide)

/-! ## Widening a negated half (R135) -/

theorem toNat_negHalf (x : Half) : (negHalf x).toNat = x.toNat ^^^ 2 ^ (Format.binary16.width - 1) :=
  BitVec.toNat_xor ..

/-- Flipping a half's sign flips the widened pattern's, and nothing else: the two have the same fields. -/
theorem widen_xor_sign {f : Format} (hf : f ≠ .binary16) (h : Nat) :
    widen f (h ^^^ 2 ^ (Format.binary16.width - 1)) = widen f h ^^^ 2 ^ (f.width - 1) := by
  have hfields : f.split (widen f (h ^^^ 2 ^ (Format.binary16.width - 1))) =
      f.split (widen f h ^^^ 2 ^ (f.width - 1)) := by
    rw [f.split_xor_sign, split_widen hf, split_widen hf, Format.split_xor_sign]
    rfl
  have htop : 2 ^ (f.width - 1) < 2 ^ f.width := by cases f <;> decide
  rw [← f.join_split (widen_lt f (h ^^^ _)), hfields, f.join_split (Nat.xor_lt_two_pow (widen_lt f h) htop)]

/-- A widening of `NEG`'s result as it stands on `y`. -/
theorem exec_widen_neg {i : Instr} {f : Format} {x : Half}
    (hi : Written.widenOperand i = some (f, halfOperand ((negHalf x).setWidth 64))) (s : State) :
    exec i s = .next { s with rsp := some {
      flags := 0b0000#4, y := BitVec.ofNat 64 (widen f x.toNat) ^^^ BitVec.ofNat 64 (2 ^ (f.width - 1)) } } := by
  rw [exec_of_widenOperand hi, halfOperand_setWidth, toNat_negHalf, widen_xor_sign (ne_binary16_of_widenOperand hi),
    BitVec.ofNat_xor]

end Machine

namespace Caller

open Sys2Proof.Machine

/-! ## A line whose target is one of its sources (spec/70_reset_and_hazards.md R187) -/

theorem Env.read_variable {e : Env} {n : Nat} {v : BitVec 64} (h : e.vars.lookup n = some v) :
    e.read (.variable n) = .ok v := by
  rw [Env.read, h]

/-- A well-formed line answers next with its operation's result, computed from the values its sources had before, in its
target. -/
theorem issue_lookup_dst {l : Line} {e : Env} {a b : BitVec 64} (s : State) (hl : l.wf = true)
    (ha : e.read l.srcA = .ok a) (hb : e.readB l.srcB = .ok b) :
    ∃ e' t, issue l e s = .next (e', t) ∧ e'.vars.lookup l.dst = some (answer s.cfg (lineInstr l.op a b)).y :=
  ⟨_, _, issue_eq_take s hl ha hb, lookup_take_answer_self e l.dst s.cfg l.op a b⟩

theorem lineInstr_neg (x : Half) (b : BitVec 64) : lineInstr 3#3 (x.setWidth 64) b = .neg x :=
  congrArg Instr.neg (halfOperand_setWidth x)

theorem lineInstr_copysign (x z : Half) :
    lineInstr 4#3 (x.setWidth 64) (z.setWidth 64) = .copysign x (signOfHalf z) :=
  congrArg₂ Instr.copysign (halfOperand_setWidth x) (congrArg signSource (setWidth_setWidth_half z))

end Caller
end Sys2Proof
end

section
/-! The sign operations: what each does to bit 15, their identities, the widenings, and a line with one variable as
source and target. -/

namespace Sys2Proof.Proofs

open Sys2Proof.Machine

/-- Settles O47: a negated half has the other sign and the same remaining fields, and so have the widened patterns. -/
theorem negationCommutesWithWidening : Obligations.NegationCommutesWithWidening := fun x s =>
  ⟨(negHalf x).setWidth 64, _, _, exec_neg x s, exec_of_widenOperand rfl s, exec_widen_neg (f := .binary32) rfl s,
    exec_of_widenOperand rfl s, exec_widen_neg (f := .binary64) rfl s⟩

/-- Settles O50: the line's result is computed from the old value, and a half with its own sign is itself. -/
theorem sourceIsReadBeforeTargetIsWritten : Obligations.SourceIsReadBeforeTargetIsWritten := by
  intro e s n x hx
  have hread := Caller.Env.read_variable hx
  constructor
  · have hneg := Caller.issue_lookup_dst
      (l := { op := 3#3, dst := n, srcA := .variable n, srcB := none }) s rfl hread rfl
    rwa [Caller.lineInstr_neg] at hneg
  · have hcopy := Caller.issue_lookup_dst
      (l := { op := 4#3, dst := n, srcA := .variable n, srcB := some (.variable n) }) s rfl hread hread
    rwa [Caller.lineInstr_copysign, answer, copysignHalf_signOfHalf] at hcopy

/-- Settles O42: on sign and magnitude `NEG` is the complement of the sign. -/
theorem negFlipsBitFifteen : Obligations.NegFlipsBitFifteen := by
  intro x s
  obtain ⟨g, m, rfl⟩ := exists_half_eq_append x
  refine ⟨negHalf (g ++ m), exec_neg _ s, rfl, ?_, ?_, ?_, fun _ a => congrArg Instr.neg (halfOperand_append a _)⟩
  · rw [negHalf_append, BitVec.extractLsb'_append_eq_left, BitVec.extractLsb'_append_eq_left]
  · rw [negHalf_append, BitVec.extractLsb'_append_eq_right, BitVec.extractLsb'_append_eq_right]
  · rw [exec_neg, negHalf_negHalf]
    rfl

/-- Settles O43: on sign and magnitude `ABS` is the magnitude under the sign 0. -/
theorem absClearsBitFifteen : Obligations.AbsClearsBitFifteen := by
  intro x s
  obtain ⟨g, m, rfl⟩ := exists_half_eq_append x
  refine ⟨absHalf (g ++ m), exec_abs _ s, rfl, ?_, ?_, ?_, fun _ a => congrArg Instr.abs (halfOperand_append a _)⟩
  · rw [absHalf_append, BitVec.extractLsb'_append_eq_left]
  · rw [absHalf_append, BitVec.extractLsb'_append_eq_right, BitVec.extractLsb'_append_eq_right]
  · rw [exec_signbit, absHalf_append, signOfHalf_append]
    rfl

/-- Settles O44: `y` is 63 zeros over the sign bit. -/
theorem signbitTestsBitFifteen : Obligations.SignbitTestsBitFifteen := by
  intro x s
  refine ⟨_, exec_signbit x s, ?_, ?_, fun _ a => congrArg Instr.signbit (halfOperand_append a x)⟩
  · rw [setWidth_sign_eq_append]
    exact BitVec.extractLsb'_append_eq_right
  · rw [setWidth_sign_eq_append]
    exact BitVec.extractLsb'_append_eq_left

/-- Settles O45: on sign and magnitude `COPYSIGN` is the magnitude under the given sign. -/
theorem copysignCombinesSignAndMagnitude : Obligations.CopysignCombinesSignAndMagnitude := by
  intro x k s
  obtain ⟨g, m, rfl⟩ := exists_half_eq_append x
  refine ⟨copysignHalf (g ++ m) k, exec_copysign _ k s, ?_, ?_, ?_,
    fun _ a => congrArg₂ Instr.copysign (halfOperand_append a _) BitVec.extractLsb'_append_eq_left⟩
  · rw [copysignHalf_append, BitVec.extractLsb'_append_eq_left]
  · rw [copysignHalf_append, BitVec.extractLsb'_append_eq_right, BitVec.extractLsb'_append_eq_right]
  · rintro rfl
    exact copysignHalf_signOfHalf (g ++ m)

/-- Settles O46: each identity is read off sign and magnitude; of two signs that differ, one is the other's
complement. -/
theorem signIdentities : Obligations.SignIdentities := by
  intro x z
  obtain ⟨g, m, rfl⟩ := exists_half_eq_append x
  have hcompl : ~~~g = 1#1 - g := by revert g; decide
  have hpick : ∀ k : BitVec 1, k = if g = k then g else ~~~g := by revert g; decide
  refine ⟨negHalf_negHalf _, by simp, by simp, by simp, by simp, by simp, by simp [hcompl], ?_, by simp, ?_⟩
  · rw [absHalf_append, copysignHalf_append]
    rfl
  · rw [copysignHalf_append, signSource_eq_signOfHalf, signOfHalf_append, negHalf_append, ← apply_ite (· ++ m),
      ← hpick]

end Sys2Proof.Proofs
end

section
/-! Raised conditions: which operations can raise which (spec/60_exceptions.md R152). -/

namespace Sys2Proof.Machine

/-- Each of `NX`, `UF` and `OF` is in a set of R95. -/
theorem exists_legalFlags_getLsbD {k : Nat} (hk : k < 3) :
    ∃ flags : FlagSet, legalFlags flags = true ∧ flags.getLsbD k = true := by
  match k with
  | 0 => exact ⟨flagNX, by decide⟩
  | 1 => exact ⟨flagUF ||| flagNX, by decide⟩
  | 2 => exact ⟨overflowFlags, by decide⟩

/-- `NV` is in no set of R95 (R155). -/
theorem getLsbD_NV_of_legalFlags : ∀ {flags : FlagSet}, legalFlags flags = true → flags.getLsbD 3 = false := by decide

/-- What is no narrowing raises nothing (R112, R130). -/
theorem answer_flags_of_not_narrowing (cfg : Config) {i : Instr} (hi : Written.narrowOperand i = none) :
    (answer cfg i).flags = noFlags := by
  cases i with
  | f32tof16 _ | f64tof16 _ => cases hi
  | f16tof32 _ | neg _ | copysign _ _ | signbit _ | abs _ | f16tof64 _ => rfl

end Sys2Proof.Machine

namespace Sys2Proof.Proofs

open Sys2Proof.Machine

/-- Settles O48: each of the three bits is in a set of R95 and each such set has an operand of either width, `NV` is in none
of them, and the answer of any other operation has the empty set. -/
theorem whichOperationsRaiseWhat : Obligations.WhichOperationsRaiseWhat := by
  constructor
  · intro k s hk
    obtain ⟨flags, hlegal, hbit⟩ := exists_legalFlags_getLsbD hk
    obtain ⟨⟨w, y, hw⟩, d, z, hd⟩ := fourSetsOfConditions.2 flags s hlegal
    exact ⟨⟨w, _, hw, hbit⟩, d, _, hd, hbit⟩
  · exact fun i s => ⟨answer s.cfg i, exec_eq_answer i s, answer_flags_of_not_narrowing s.cfg,
      getLsbD_NV_of_legalFlags (legalFlags_answer s.cfg i)⟩

end Sys2Proof.Proofs
end

section
/-! SUPPORT. A step on a presented request and on undriven inputs, and a line with a source nothing has written
(spec/70_reset_and_hazards.md R180, R182, R188). -/

namespace Sys2Proof

namespace Machine

theorem fetch_of_no_req {s : State} (h : s.req = none) : fetch s = none := by
  simp [fetch, h]

/-- A step on a presented request answers it, and leaves the parameters and the request. -/
theorem step_present (s : State) (r : Request) :
    step (s.present r) = .next ((s.present r).withRsp (some (answer s.cfg (decode r.toWord)))) :=
  step_eq_answer (s.present r)

/-- Of the state before a request is presented, a step on it sees the parameters alone. -/
theorem step_present_congr {s t : State} (r : Request) (hcfg : t.cfg = s.cfg) :
    step (t.present r) = step (s.present r) := by
  rw [step_present, step_present, State.present, State.present, hcfg]; rfl

theorem step_cfg {s t : State} (h : step s = .next t) : t.cfg = s.cfg := by
  rw [step_next h, State.withRsp_cfg]

end Machine

namespace Caller

theorem Env.read_unwritten {e : Env} {n : Nat} (h : e.vars.lookup n = none) :
    e.read (.variable n) = .error (.readBeforeWrite n) := by
  rw [Env.read, h]

/-- A well-formed line stops at a first source that has no value. -/
theorem issue_of_read_srcA_error {l : Line} {e : Env} {f : Fault} (s : Machine.State) (hl : l.wf = true)
    (ha : e.read l.srcA = .error f) : issue l e s = .fault f := by
  simp [issue, hl, ha]

/-- A well-formed line whose first source has a value stops at a second source that has none. -/
theorem issue_of_readB_srcB_error {l : Line} {e : Env} {a : BitVec 64} {f : Fault} (s : Machine.State)
    (hl : l.wf = true) (ha : e.read l.srcA = .ok a) (hb : e.readB l.srcB = .error f) : issue l e s = .fault f := by
  simp [issue, hl, ha, hb]

end Caller
end Sys2Proof
end

section
/-! Undriven inputs, earlier requests, and variables nothing has written. -/

namespace Sys2Proof.Proofs

open Sys2Proof.Machine

/-- Settles O13: a step keeps the parameters (`step_cfg`), and they are all that the next request's step sees of the state
before it (`step_present_congr`). -/
theorem earlierOperationsLeaveNoTrace : Obligations.EarlierOperationsLeaveNoTrace := by
  intro s t q r hstep
  have hcfg : t.cfg = s.cfg := (step_cfg hstep).trans (s.present_cfg q)
  have hsame : step (t.present r) = step (s.present r) := step_present_congr r hcfg
  exact ⟨answer s.cfg (decode r.toWord), hsame.trans (step_present s r), step_present s r⟩

/-- Settles O51: the unwritten variable's read is the fault, and the line stops with the fault of whichever source it
is. -/
theorem unwrittenVariableIsNotAssumedZero : Obligations.UnwrittenVariableIsNotAssumedZero := by
  intro l e s n hl hn
  have hread : e.read (.variable n) = .error (.readBeforeWrite n) := Caller.Env.read_unwritten hn
  constructor
  · intro hA
    exact Caller.issue_of_read_srcA_error s hl (hA ▸ hread)
  · intro a ha hB
    have hreadB : e.readB l.srcB = .error (.readBeforeWrite n) := by rw [hB]; exact hread
    exact Caller.issue_of_readB_srcB_error s hl ha hreadB

/-- Settles O8: without a request nothing is fetched, and `undriven` is the step. -/
theorem undrivenInputsLeaveNoResponse : Obligations.UndrivenInputsLeaveNoResponse := fun _ hreq =>
  step_of_no_fetch (fetch_of_no_req hreq)

end Sys2Proof.Proofs
end

section
/-! The request words written out in spec/95_test_vectors.md. -/

namespace Sys2Proof.Proofs

/-- The number a request's three ports make up (spec/30_encoding.md R40) decodes as that request. -/
theorem decodeWord_append (op : BitVec 3) (b : BitVec 16) (a : BitVec 64) :
    decodeWord (op ++ b ++ a : BitVec 83).toNat = .ok (decodeRequest { op := op, b := b, a := a }) := by
  rw [decodeWord_toNat, decode_append]

/-- Settles O3: each word is the number of its ports, which stand here as opcode, `b` and `a`, and the decoder's arm for
the opcode reads its operand from them. -/
theorem writtenRequestWordsDecode : Obligations.WrittenRequestWordsDecode :=
  ⟨decodeWord_append 0#3 0#16 0xBC00#64,
    decodeWord_append 1#3 0#16 0xBF800000#64,
    decodeWord_append 2#3 0#16 0xBFF0000000000000#64,
    decodeWord_append 3#3 0#16 0xBC00#64,
    decodeWord_append 4#3 0#16 0xBC00#64,
    decodeWord_append 4#3 0xFC00#16 0x7BFF#64,
    decodeWord_append 4#3 0x8000#16 0x7C01#64,
    decodeWord_append 5#3 0#16 0xBC00#64,
    decodeWord_append 6#3 0#16 0xBC00#64,
    decodeWord_append 7#3 0#16 0xBC00#64⟩

end Sys2Proof.Proofs
end
